-- ==== Sys2Proof/Word.lean ====
section
/-! DEFINITION. The bit fields and the signal-value carrier of the wavetable_oscillator (spec 00_scope.md R8, R9;
30_encoding.md R49 to R51). -/

namespace Sys2Proof

/-- A data operand: the low 7 bits of an event's data byte (R51). -/
abbrev Data7 := BitVec 7

/-- Half of the status byte: the category or the channel (R50). -/
abbrev Nibble := BitVec 4

/-- The command word, 26 bits (R49). -/
abbrev CmdWord := BitVec 26

/-- The carrier of every signal value (R8). In the reference instance of `NUM` a value is the exact rational itself;
in any other instance it is a code for the instance's value (DESIGN CHOICE, log 1). -/
abbrev NumVal := Rat

end Sys2Proof
end

