-- ==== Sys2Proof/Config.lean ====
section
/-! DEFINITION. The construction-time configuration `CFG` (spec 00_scope.md R6 to R8) and the constants the spec leaves
open: an uninterpreted number system, the value of a division by zero, an element a ROM does not have. -/

namespace Sys2Proof

/-- The number system `NUM` (R8): the reference instance, exact rationals, or any other instance, told apart by a
number and otherwise uninterpreted (DESIGN CHOICE, log 1). -/
inductive NumSys where
  | exact
  | other (id : Nat)
  deriving DecidableEq, Repr

/-- The event categories' codes `ST_NOTE_OFF`, `ST_NOTE_ON`, `ST_CC` (R6, 30_encoding.md R50). -/
structure StatusCodes where
  noteOff : Nibble
  noteOn  : Nibble
  cc      : Nibble
  deriving DecidableEq, Repr

/-- The default codes 0x8, 0x9, 0xB (PRESUMED, log 12: the spec takes them from general knowledge, G1). -/
def StatusCodes.midi : StatusCodes := { noteOff := 0x8, noteOn := 0x9, cc := 0xB }

/-- The record `CFG` of R6, every parameter of it; no transaction writes it. -/
structure Cfg where
  num        : NumSys
  sampleRate : NumVal
  nvoices    : Nat
  nwaves     : Nat
  nbands     : Nat
  /-- `BAND_THRESH[0 .. NBANDS-2]`. -/
  bandThresh : List NumVal
  tableSize  : Nat
  /-- `WT[b][w][i]`, bands of waves of samples. -/
  wt         : List (List (List NumVal))
  pitchFreq  : List NumVal
  ccTime     : List NumVal
  filterEn   : Bool
  chN        : Nat
  chLen      : Nat
  chBase     : NumVal
  chDepth    : NumVal
  chRate     : NumVal
  chMult     : List Nat
  chBypass   : NumVal
  dlOffset   : Nat
  dlCap      : Nat
  dlWet      : NumVal
  dlDry      : NumVal
  headroom   : NumVal
  codes      : StatusCodes
  deriving DecidableEq, Repr

/-! Free values: constants without a body, so that no proof can know one of their values. -/

/-- `+` of an instance of `NUM` other than the reference one (R8; log 1). -/
opaque Config.otherAdd : Nat → NumVal → NumVal → NumVal
/-- `-` of another instance (R8; log 1). -/
opaque Config.otherSub : Nat → NumVal → NumVal → NumVal
/-- `*` of another instance (R8; log 1). -/
opaque Config.otherMul : Nat → NumVal → NumVal → NumVal
/-- `/` of another instance (R8; log 1). -/
opaque Config.otherDiv : Nat → NumVal → NumVal → NumVal
/-- `abs` of another instance (R8; log 1). -/
opaque Config.otherAbs : Nat → NumVal → NumVal
/-- `max` of another instance (R8; log 1). -/
opaque Config.otherMax : Nat → NumVal → NumVal → NumVal
/-- `min` of another instance (R8; log 1). -/
opaque Config.otherMin : Nat → NumVal → NumVal → NumVal
/-- `<` of another instance (R8; log 1). -/
opaque Config.otherLt : Nat → NumVal → NumVal → Bool
/-- `<=` of another instance (R8; log 1). -/
opaque Config.otherLe : Nat → NumVal → NumVal → Bool
/-- `=` of another instance (R8; log 1). -/
opaque Config.otherEq : Nat → NumVal → NumVal → Bool
/-- `floor` of another instance (R8; log 1). -/
opaque Config.otherFloor : Nat → NumVal → Int
/-- `ofInt` of another instance, at integers other than 0 (R8; log 1). -/
opaque Config.otherOfInt : Nat → Int → NumVal
/-- `ofRat` of another instance (R8; log 1). -/
opaque Config.otherOfRat : Nat → Rat → NumVal

/-- What `x / 0` gives in the reference instance: never a known value (U1; DESIGN CHOICE, log 2). -/
opaque Config.divByZero : NumVal → NumVal

/-- What reading an element that a ROM does not have gives: only a `CFG` outside R6 lacks one (DESIGN CHOICE, log 17). -/
opaque Config.absentElement : NumVal

end Sys2Proof
end

