-- ==== Sys2Proof/Syntax.lean ====
section
/-! DEFINITION. The commands: one constructor per row of the spec's opcode table (30_encoding.md R53). Operands are the
fields the rows name: `chan`, the data operands `d1`, `d2` (R50, R51), and the category of an ignored event. -/

namespace Sys2Proof

/-- The transactions a command word can carry (R49, R53). `chan` is decoded and ignored by every rule (R50). -/
inductive Instr where
  | nop
  | tick
  | rsvdOp3
  | noteOff      (chan : Nibble) (pitch : Data7)
  | noteOn       (chan : Nibble) (pitch vel : Data7)
  | ccAttack     (chan : Nibble) (val : Data7)
  | ccDecay      (chan : Nibble) (val : Data7)
  | ccSustain    (chan : Nibble) (val : Data7)
  | ccRelease    (chan : Nibble) (val : Data7)
  | ccOscmix     (chan : Nibble) (val : Data7)
  | ccCutoff     (chan : Nibble) (val : Data7)
  | ccResonance  (chan : Nibble) (val : Data7)
  | ccChorusmix  (chan : Nibble) (val : Data7)
  | ccIgn0       (chan : Nibble) (id val : Data7)
  | ccIgn1       (chan : Nibble) (id val : Data7)
  | ccIgn2       (chan : Nibble) (id val : Data7)
  | ccIgn3       (chan : Nibble) (id val : Data7)
  | evtIgn0      (cat chan : Nibble)
  | evtIgn1      (cat chan : Nibble)
  | evtIgn2      (cat chan : Nibble)
  | evtIgn3      (cat chan : Nibble)
  deriving DecidableEq, Repr

end Sys2Proof
end

