-- ==== Sys2Proof/WellFormed.lean ====
section
/-! DEFINITION. Which terms of `Instr` a command word can carry (30_encoding.md R53 to R55), for given status codes. -/

namespace Sys2Proof

/-- The category is none of the three codes (R55). -/
def StatusCodes.ignores (k : StatusCodes) (cat : Nibble) : Bool :=
  decide (cat ≠ k.noteOff) && decide (cat ≠ k.noteOn) && decide (cat ≠ k.cc)

/-- The ranges of ids and categories of the CC_IGN and EVT_IGN rows (R53). With the default codes the only category of
EVT_IGN_1 is 0xA; with other codes its range is 0x8 to 0xB (DESIGN CHOICE, log 13). -/
def Instr.wellFormed (k : StatusCodes) : Instr → Bool
  | .nop | .tick | .rsvdOp3 => true
  | .noteOff _ _ | .noteOn _ _ _ => true
  | .ccAttack _ _ | .ccDecay _ _ | .ccSustain _ _ | .ccRelease _ _ => true
  | .ccOscmix _ _ | .ccCutoff _ _ | .ccResonance _ _ | .ccChorusmix _ _ => true
  | .ccIgn0 _ id _ => decide (8 ≤ id.toNat) && decide (id.toNat < 16)
  | .ccIgn1 _ id _ => decide (16 ≤ id.toNat) && decide (id.toNat < 32)
  | .ccIgn2 _ id _ => decide (32 ≤ id.toNat) && decide (id.toNat < 64)
  | .ccIgn3 _ id _ => decide (64 ≤ id.toNat)
  | .evtIgn0 cat _ => k.ignores cat && decide (cat.toNat < 8)
  | .evtIgn1 cat _ => k.ignores cat && decide (8 ≤ cat.toNat) && decide (cat.toNat < 12)
  | .evtIgn2 cat _ => k.ignores cat && decide (12 ≤ cat.toNat) && decide (cat.toNat < 14)
  | .evtIgn3 cat _ => k.ignores cat && decide (14 ≤ cat.toNat)

end Sys2Proof
end

