-- ==== Sys2Proof/Decode.lean ====
section
/-! DEFINITION. Decoding and encoding of the 26-bit command word (30_encoding.md R49 to R56), and the spec's opcode
table of masks and matches (R53) as data. -/

namespace Sys2Proof

/-- `cmd[25:24]` (R49). -/
def opField (w : CmdWord) : BitVec 2 := w.extractLsb' 24 2
/-- `b0[7:4]`, the category (R50). -/
def catField (w : CmdWord) : Nibble := w.extractLsb' 20 4
/-- `b0[3:0]`, the channel (R50). -/
def chanField (w : CmdWord) : Nibble := w.extractLsb' 16 4
/-- `b1[6:0]`, the first data operand; bit 7 of the byte is discarded (R51). -/
def d1Field (w : CmdWord) : Data7 := w.extractLsb' 8 7
/-- `b2[6:0]`, the second data operand; bit 7 of the byte is discarded (R51). -/
def d2Field (w : CmdWord) : Data7 := w.extractLsb' 0 7

/-- A control change by its id `d1` (R53, R54). -/
def decodeCc (chan : Nibble) (id val : Data7) : Instr :=
  if id.toNat = 0 then .ccAttack chan val
  else if id.toNat = 1 then .ccDecay chan val
  else if id.toNat = 2 then .ccSustain chan val
  else if id.toNat = 3 then .ccRelease chan val
  else if id.toNat = 4 then .ccOscmix chan val
  else if id.toNat = 5 then .ccCutoff chan val
  else if id.toNat = 6 then .ccResonance chan val
  else if id.toNat = 7 then .ccChorusmix chan val
  else if id.toNat < 16 then .ccIgn0 chan id val
  else if id.toNat < 32 then .ccIgn1 chan id val
  else if id.toNat < 64 then .ccIgn2 chan id val
  else .ccIgn3 chan id val

/-- An event of a category that is none of the three codes (R55), by the ranges of the EVT_IGN rows (R53; log 13). -/
def decodeIgnored (cat chan : Nibble) : Instr :=
  if cat.toNat < 8 then .evtIgn0 cat chan
  else if cat.toNat < 12 then .evtIgn1 cat chan
  else if cat.toNat < 14 then .evtIgn2 cat chan
  else .evtIgn3 cat chan

/-- An event: the category is tested first, then the controller id (R50, 60_exceptions.md R143). -/
def decodeEvt (k : StatusCodes) (cat chan : Nibble) (d1 d2 : Data7) : Instr :=
  if cat = k.noteOff then .noteOff chan d1
  else if cat = k.noteOn then .noteOn chan d1 d2
  else if cat = k.cc then decodeCc chan d1 d2
  else decodeIgnored cat chan

/-- Decoding of a command word: total, there are no illegal encodings (R49, R53, R56). -/
def decode (k : StatusCodes) (w : CmdWord) : Instr :=
  if opField w = 0 then .nop
  else if opField w = 1 then decodeEvt k (catField w) (chanField w) (d1Field w) (d2Field w)
  else if opField w = 2 then .tick
  else .rsvdOp3

/-- Why a number is no command word. -/
inductive DecodeError where
  /-- The number has a bit above bit 25; the command port is 26 bits wide (R49). Raised by `decodePort`; safe. -/
  | widerThanCommandWord (n : Nat)
  deriving DecidableEq, Repr

/-- Decoding of any number, rejecting by name what is wider than a command word (R49; log 15). -/
def decodePort (k : StatusCodes) (n : Nat) : Except DecodeError Instr :=
  if n < 2 ^ 26 then .ok (decode k (BitVec.ofNat 26 n)) else .error (.widerThanCommandWord n)

/-- The instruction the decoder reads from a word of `nbits` bits numbered as the opcode table numbers them; the
table's masks are those of the default status codes (R53). -/
def decodeTableWord (nbits w : Nat) : Option Instr :=
  match decodePort StatusCodes.midi (w % 2 ^ nbits) with
  | .ok i => some i
  | .error _ => none

/-! Encoding: the textual notation's expansion (R58), with `chan` at its operand's value and every ignored bit 0
(log 14). -/

/-- A command word from its fields; bits 15 and 7 are 0 (R49, R50). -/
def encodeFields (op : BitVec 2) (cat chan : Nibble) (d1 d2 : Data7) : CmdWord :=
  op ++ cat ++ chan ++ 0#1 ++ d1 ++ 0#1 ++ d2

/-- The command word of a well-formed instruction (R53, R58). -/
def encode (k : StatusCodes) : Instr → CmdWord
  | .nop => encodeFields 0 0 0 0 0
  | .tick => encodeFields 2 0 0 0 0
  | .rsvdOp3 => encodeFields 3 0 0 0 0
  | .noteOff chan pitch => encodeFields 1 k.noteOff chan pitch 0
  | .noteOn chan pitch vel => encodeFields 1 k.noteOn chan pitch vel
  | .ccAttack chan val => encodeFields 1 k.cc chan 0 val
  | .ccDecay chan val => encodeFields 1 k.cc chan 1 val
  | .ccSustain chan val => encodeFields 1 k.cc chan 2 val
  | .ccRelease chan val => encodeFields 1 k.cc chan 3 val
  | .ccOscmix chan val => encodeFields 1 k.cc chan 4 val
  | .ccCutoff chan val => encodeFields 1 k.cc chan 5 val
  | .ccResonance chan val => encodeFields 1 k.cc chan 6 val
  | .ccChorusmix chan val => encodeFields 1 k.cc chan 7 val
  | .ccIgn0 chan id val => encodeFields 1 k.cc chan id val
  | .ccIgn1 chan id val => encodeFields 1 k.cc chan id val
  | .ccIgn2 chan id val => encodeFields 1 k.cc chan id val
  | .ccIgn3 chan id val => encodeFields 1 k.cc chan id val
  | .evtIgn0 cat chan => encodeFields 1 cat chan 0 0
  | .evtIgn1 cat chan => encodeFields 1 cat chan 0 0
  | .evtIgn2 cat chan => encodeFields 1 cat chan 0 0
  | .evtIgn3 cat chan => encodeFields 1 cat chan 0 0

/-- The bits of a command word that carry its instruction's operation and operands; the opcode table's notes name the
others as ignored (R49 to R51). -/
def keptBits : Instr → CmdWord
  | .nop => 0x3000000
  | .tick => 0x3000000
  | .rsvdOp3 => 0x3000000
  | .noteOff _ _ => 0x3FF7F00
  | .noteOn _ _ _ => 0x3FF7F7F
  | .ccAttack _ _ => 0x3FF7F7F
  | .ccDecay _ _ => 0x3FF7F7F
  | .ccSustain _ _ => 0x3FF7F7F
  | .ccRelease _ _ => 0x3FF7F7F
  | .ccOscmix _ _ => 0x3FF7F7F
  | .ccCutoff _ _ => 0x3FF7F7F
  | .ccResonance _ _ => 0x3FF7F7F
  | .ccChorusmix _ _ => 0x3FF7F7F
  | .ccIgn0 _ _ _ => 0x3FF7F7F
  | .ccIgn1 _ _ _ => 0x3FF7F7F
  | .ccIgn2 _ _ _ => 0x3FF7F7F
  | .ccIgn3 _ _ _ => 0x3FF7F7F
  | .evtIgn0 _ _ => 0x3FF0000
  | .evtIgn1 _ _ => 0x3FF0000
  | .evtIgn2 _ _ => 0x3FF0000
  | .evtIgn3 _ _ => 0x3FF0000

/-! The opcode table of R53 as the spec writes it, independent of `decode`. -/

/-- One row: the words `w` with `w &&& mask = bits` are the mnemonic's. -/
structure OpcodeRow where
  mnemonic : String
  mask     : CmdWord
  bits     : CmdWord
  deriving DecidableEq, Repr

/-- The rows for the default status codes (R53). -/
def opcodeTable : List OpcodeRow :=
  [⟨"NOP", 0x3000000, 0x0000000⟩, ⟨"TICK", 0x3000000, 0x2000000⟩, ⟨"RSVD_OP3", 0x3000000, 0x3000000⟩,
   ⟨"NOTE_OFF", 0x3F00000, 0x1800000⟩, ⟨"NOTE_ON", 0x3F00000, 0x1900000⟩] ++
  [⟨"CC_ATTACK", 0x3F07F00, 0x1B00000⟩, ⟨"CC_DECAY", 0x3F07F00, 0x1B00100⟩, ⟨"CC_SUSTAIN", 0x3F07F00, 0x1B00200⟩,
   ⟨"CC_RELEASE", 0x3F07F00, 0x1B00300⟩, ⟨"CC_OSCMIX", 0x3F07F00, 0x1B00400⟩, ⟨"CC_CUTOFF", 0x3F07F00, 0x1B00500⟩,
   ⟨"CC_RESONANCE", 0x3F07F00, 0x1B00600⟩, ⟨"CC_CHORUSMIX", 0x3F07F00, 0x1B00700⟩] ++
  [⟨"CC_IGN_0", 0x3F07800, 0x1B00800⟩, ⟨"CC_IGN_1", 0x3F07000, 0x1B01000⟩, ⟨"CC_IGN_2", 0x3F06000, 0x1B02000⟩,
   ⟨"CC_IGN_3", 0x3F04000, 0x1B04000⟩] ++
  [⟨"EVT_IGN_0", 0x3800000, 0x1000000⟩, ⟨"EVT_IGN_1", 0x3F00000, 0x1A00000⟩, ⟨"EVT_IGN_2", 0x3E00000, 0x1C00000⟩,
   ⟨"EVT_IGN_3", 0x3E00000, 0x1E00000⟩]

/-- The row's name of an instruction. -/
def mnemonicOf : Instr → String
  | .nop => "NOP"
  | .tick => "TICK"
  | .rsvdOp3 => "RSVD_OP3"
  | .noteOff _ _ => "NOTE_OFF"
  | .noteOn _ _ _ => "NOTE_ON"
  | .ccAttack _ _ => "CC_ATTACK"
  | .ccDecay _ _ => "CC_DECAY"
  | .ccSustain _ _ => "CC_SUSTAIN"
  | .ccRelease _ _ => "CC_RELEASE"
  | .ccOscmix _ _ => "CC_OSCMIX"
  | .ccCutoff _ _ => "CC_CUTOFF"
  | .ccResonance _ _ => "CC_RESONANCE"
  | .ccChorusmix _ _ => "CC_CHORUSMIX"
  | .ccIgn0 _ _ _ => "CC_IGN_0"
  | .ccIgn1 _ _ _ => "CC_IGN_1"
  | .ccIgn2 _ _ _ => "CC_IGN_2"
  | .ccIgn3 _ _ _ => "CC_IGN_3"
  | .evtIgn0 _ _ => "EVT_IGN_0"
  | .evtIgn1 _ _ => "EVT_IGN_1"
  | .evtIgn2 _ _ => "EVT_IGN_2"
  | .evtIgn3 _ _ => "EVT_IGN_3"

end Sys2Proof
end

