-- ==== Sys2Proof/Machine/Num.lean ====
section
/-! DEFINITION. The operations of the number system `NUM` (spec 00_scope.md R8, 46_engine.md R136). Every rule's
arithmetic is written over these, one operation per operator, in the rule's order of evaluation. -/

namespace Sys2Proof

/-- `a + b`. -/
def NumSys.add : NumSys → NumVal → NumVal → NumVal
  | .exact, a, b => a + b
  | .other k, a, b => Config.otherAdd k a b

/-- `a - b`. -/
def NumSys.sub : NumSys → NumVal → NumVal → NumVal
  | .exact, a, b => a - b
  | .other k, a, b => Config.otherSub k a b

/-- `a * b`. -/
def NumSys.mul : NumSys → NumVal → NumVal → NumVal
  | .exact, a, b => a * b
  | .other k, a, b => Config.otherMul k a b

/-- `a / b`; by zero, in the reference instance, a free value (U1: "Never give x / 0 a value"). -/
def NumSys.div : NumSys → NumVal → NumVal → NumVal
  | .exact, a, b => if b = 0 then Config.divByZero a else a / b
  | .other k, a, b => Config.otherDiv k a b

/-- `abs a`. -/
def NumSys.abs : NumSys → NumVal → NumVal
  | .exact, a => if a < 0 then -a else a
  | .other k, a => Config.otherAbs k a

/-- `max a b`. -/
def NumSys.max : NumSys → NumVal → NumVal → NumVal
  | .exact, a, b => if a ≤ b then b else a
  | .other k, a, b => Config.otherMax k a b

/-- `min a b`. -/
def NumSys.min : NumSys → NumVal → NumVal → NumVal
  | .exact, a, b => if a ≤ b then a else b
  | .other k, a, b => Config.otherMin k a b

/-- `a < b`. -/
def NumSys.lt : NumSys → NumVal → NumVal → Bool
  | .exact, a, b => decide (a < b)
  | .other k, a, b => Config.otherLt k a b

/-- `a <= b`. -/
def NumSys.le : NumSys → NumVal → NumVal → Bool
  | .exact, a, b => decide (a ≤ b)
  | .other k, a, b => Config.otherLe k a b

/-- `a = b`. -/
def NumSys.eq : NumSys → NumVal → NumVal → Bool
  | .exact, a, b => decide (a = b)
  | .other k, a, b => Config.otherEq k a b

/-- `floor a`, the greatest integer `<= a` (R9). -/
def NumSys.floor : NumSys → NumVal → Int
  | .exact, a => Rat.floor a
  | .other k, a => Config.otherFloor k a

/-- `ofInt n`. The carrier's 0 is the code of `ofInt 0` in every instance (DESIGN CHOICE, log 1). -/
def NumSys.ofInt : NumSys → Int → NumVal
  | .exact, n => (n : Rat)
  | .other k, n => if n = 0 then 0 else Config.otherOfInt k n

/-- `ofRat q`. -/
def NumSys.ofRat : NumSys → Rat → NumVal
  | .exact, q => q
  | .other k, q => Config.otherOfRat k q

/-- `clamp(x, lo, hi) = min(max(x, lo), hi)` (R9). -/
def NumSys.clamp (N : NumSys) (x lo hi : NumVal) : NumVal := N.min (N.max x lo) hi

/-- The running sum of a rule's `for` loop: from `ofInt 0`, one addition per term, in the order of the list. -/
def NumSys.sum (N : NumSys) (xs : List NumVal) : NumVal := xs.foldl (fun acc x => N.add acc x) (N.ofInt 0)

end Sys2Proof
end

