-- ==== Sys2Proof/Machine/Launch.lean ====
section
/-! DEFINITION. Which configurations the spec admits (00_scope.md R6, R7; 93_implementation_defined.md U3, U7), which
values it fixes for this hardware (R6, column "value"), and the configuration in `State.reset`. -/

namespace Sys2Proof

/-- `BAND_THRESH` strictly ascending (R6). -/
def Cfg.ascending (N : NumSys) : List NumVal → Bool
  | [] => true
  | [_] => true
  | a :: b :: rest => N.lt a b && Cfg.ascending N (b :: rest)

/-- The constraints on the sizes and the sample rate (R6). -/
def Cfg.sizesLegal (c : Cfg) : Bool :=
  c.num.lt (c.num.ofInt 0) c.sampleRate && decide (1 ≤ c.nvoices) && decide (2 ≤ c.nwaves) &&
  decide (1 ≤ c.nbands) && decide (1 ≤ c.tableSize)

/-- The constraints on the thresholds (R6): `NBANDS - 1` of them, strictly ascending, all positive. -/
def Cfg.bandsLegal (c : Cfg) : Bool :=
  decide (c.bandThresh.length + 1 = c.nbands) && Cfg.ascending c.num c.bandThresh &&
  c.bandThresh.all (fun t => c.num.lt (c.num.ofInt 0) t)

/-- `WT[0][0]`, the sine of band 0 and the LFO's table (R6, 40_oscillator.md R64). -/
def Cfg.lfoTable (c : Cfg) : List NumVal := (c.wt.getD 0 []).getD 0 []

/-- The constraints on `WT` (R6): every band has `NWAVES` tables of `TABLE_SIZE` samples, and the LFO table lies in
`[-1, 1]`. -/
def Cfg.wavesLegal (c : Cfg) : Bool :=
  decide (c.wt.length = c.nbands) &&
  c.wt.all (fun band => decide (band.length = c.nwaves) && band.all (fun t => decide (t.length = c.tableSize))) &&
  c.lfoTable.all (fun x => c.num.le (c.num.ofInt (-1)) x && c.num.le x (c.num.ofInt 1))

/-- The constraints on `PITCH_FREQ` and `CC_TIME` (R6, U3): 128 entries, none negative, `CC_TIME[0] = 0`. -/
def Cfg.romsLegal (c : Cfg) : Bool :=
  decide (c.pitchFreq.length = 128) && c.pitchFreq.all (fun f => c.num.le (c.num.ofInt 0) f) &&
  decide (c.ccTime.length = 128) && c.ccTime.all (fun t => c.num.le (c.num.ofInt 0) t) &&
  c.num.eq (c.ccTime.getD 0 Config.absentElement) (c.num.ofInt 0)

/-- The constraints on the chorus parameters (R6), the two inequalities of R7 among them. -/
def Cfg.chorusLegal (c : Cfg) : Bool :=
  decide (1 ≤ c.chN) && decide (3 ≤ c.chLen) && c.num.le (c.num.ofInt 0) c.chDepth &&
  c.num.le (c.num.ofInt 0) c.chRate && decide (c.chMult.length = c.chN) && c.chMult.all (fun m => decide (1 ≤ m)) &&
  c.num.le (c.num.ofInt 0) c.chBypass &&
  c.num.lt (c.num.ofInt 0) (c.num.sub c.chBase c.chDepth) &&
  c.num.lt (c.num.add (c.num.add c.chBase c.chDepth) (c.num.ofInt 1)) (c.num.ofInt c.chLen)

/-- The constraint on the delay's capacity (R6). -/
def Cfg.delayLegal (c : Cfg) : Bool := decide (c.dlOffset + 1 ≤ c.dlCap)

/-- The status codes are pairwise distinct (R6). -/
def StatusCodes.distinct (k : StatusCodes) : Bool :=
  decide (k.noteOff ≠ k.noteOn) && decide (k.noteOff ≠ k.cc) && decide (k.noteOn ≠ k.cc)

/-- `CFG` meets every constraint of R6 and R7. A configuration that does not is outside the spec and is refused (U7). -/
def Cfg.legal (c : Cfg) : Bool :=
  c.sizesLegal && c.bandsLegal && c.wavesLegal && c.romsLegal && c.chorusLegal && c.delayLegal && c.codes.distinct

/-- The values R6 gives this hardware (column "value"), where it does not say OPEN. -/
def Cfg.hardwareValues (c : Cfg) : Bool :=
  decide (c.nvoices = 8) && decide (c.nwaves = 3) &&
  decide (c.ccTime[0]? = some (c.num.ofInt 0)) && decide (c.ccTime[33]? = some (c.num.ofInt 1)) &&
  decide (c.ccTime[66]? = some (c.num.ofInt 3)) && decide (c.ccTime[99]? = some (c.num.ofInt 7)) &&
  c.filterEn && decide (c.chLen = 1200) && decide (c.chMult = (List.range c.chN).map (· + 1)) &&
  decide (c.chBypass = c.num.ofRat (1 / 100)) && decide (c.dlCap = c.dlOffset + 1) &&
  decide (c.headroom = c.num.ofRat (1 / 10)) && decide (c.codes = StatusCodes.midi)

/-- The configuration in `State.reset` (DESIGN CHOICE, log 3): the values R6 gives this hardware, and for its OPEN
parameters those of the spec's test configuration T (95_test_vectors.md); the entries of `CC_TIME` that no source fixes
lie on straight lines between the four exact ones. No statement rests on an OPEN value. -/
def Cfg.reset : Cfg where
  num        := .exact
  sampleRate := 4
  nvoices    := 8
  nwaves     := 3
  nbands     := 1
  bandThresh := []
  tableSize  := 4
  wt         := [[[0, 1, 0, -1], [-1, -1 / 2, 0, 1 / 2], [1, 1, -1, -1]]]
  pitchFreq  := (List.range 128).map (fun p => (p : Rat) / 16)
  ccTime     := (List.range 128).map (fun v => ((2 ^ (v / 33) : Nat) : Rat) * (1 + ((v % 33 : Nat) : Rat) / 33) - 1)
  filterEn   := true
  chN        := 2
  chLen      := 1200
  chBase     := 3
  chDepth    := 1
  chRate     := 1 / 2
  chMult     := [1, 2]
  chBypass   := 1 / 100
  dlOffset   := 2
  dlCap      := 3
  dlWet      := 1 / 2
  dlDry      := 1
  headroom   := 1 / 10
  codes      := StatusCodes.midi

end Sys2Proof
end

