-- ==== Sys2Proof/Machine/State.lean ====
section
/-! DEFINITION. The architectural state (spec 10_state.md), its value after RESET (R29), and the reasons a step can
stop. -/

namespace Sys2Proof.Machine

/-- The envelope's stage, `env_stage[v]` (R19). -/
inductive EnvStage where
  | idle
  | attack
  | decaySustain
  | release
  deriving DecidableEq, Repr

/-- The registers of one voice (R17 to R20). -/
structure Voice where
  /-- `gate[v]` (R17). -/
  gate     : Bool
  /-- `pitch[v]` (R17). -/
  pitch    : Data7
  /-- `freq[v]` (R17). -/
  freq     : NumVal
  /-- `vel[v]`: stored, read by no rule (R17, R28). -/
  vel      : Data7
  /-- `osc_phase[v]` (R18). -/
  oscPhase : NumVal
  /-- `env_stage[v]` (R19). -/
  envStage : EnvStage
  /-- `env_time[v]` (R19). -/
  envTime  : NumVal
  /-- `env_rtime[v]` (R19). -/
  envRtime : NumVal
  /-- `env_last[v]` (R19). -/
  envLast  : NumVal
  /-- `env_att[v]` (R19). -/
  envAtt   : NumVal
  /-- `env_start[v]` (R19). -/
  envStart : NumVal
  /-- `env_gate[v]` (R19). -/
  envGate  : Bool
  /-- `flt_s0[v]` (R20). -/
  fltS0    : NumVal
  /-- `flt_s1[v]` (R20). -/
  fltS1    : NumVal
  /-- `flt_s2[v]` (R20). -/
  fltS2    : NumVal
  /-- `flt_s3[v]` (R20). -/
  fltS3    : NumVal
  deriving DecidableEq, Repr

/-- The shared control registers (R23), one copy for all voices. -/
structure Control where
  attack    : NumVal
  decay     : NumVal
  sustain   : NumVal
  release   : NumVal
  oscmix    : List NumVal
  cutoff    : NumVal
  resonance : NumVal
  chorusmix : NumVal
  deriving DecidableEq, Repr

/-- A read-write memory of `NumVal` elements (20_memory.md R35): the elements that differ from the reset content 0, by
strictly rising index (log 16). -/
abbrev Mem := List (Nat × NumVal)

/-- The chorus registers and ring (R25, R27). -/
structure Chorus where
  /-- `ch_wc`. -/
  wc       : Nat
  /-- `lfo_phase[0 .. CH_N-1]`. -/
  lfoPhase : List NumVal
  /-- `ch_buf`. -/
  buf      : Mem
  deriving DecidableEq, Repr

/-- The delay registers and ring (R26, R27). -/
structure Delay where
  /-- `dl_head`. -/
  head : Nat
  /-- `dl_len`. -/
  len  : Nat
  /-- `dl_buf`. -/
  buf  : Mem
  deriving DecidableEq, Repr

/-- What the host can issue (R13): RESET on its own input, or a command word carrying an EVT, a TICK or a NOP
(30_encoding.md R49). -/
inductive Transaction where
  | reset
  | command (w : CmdWord)
  deriving DecidableEq, Repr

/-- The state between two transactions. -/
structure State where
  /-- `CFG`: written by no transaction (00_scope.md R6; the model's own field, log 3). -/
  cfg     : Cfg
  /-- The `NVOICES` voices, by index (R16). -/
  voices  : List Voice
  /-- The control registers (R23). -/
  control : Control
  /-- The chorus (R25, R27). -/
  chorus  : Chorus
  /-- The delay (R26, R27). -/
  delay   : Delay
  /-- The transactions the host has issued and the block has not executed, oldest first (the model's own field, log 7). -/
  pending : List Transaction
  /-- The samples TICK has returned to the host, oldest first (60_exceptions.md R151; the model's own field, log 8). -/
  outputs : List NumVal
  deriving DecidableEq, Repr

/-- Faults: none. "The block raises no synchronous exception" (60_exceptions.md R140), and "a model needs no fault
outcome for in-spec inputs" (R144). -/
inductive Fault
  deriving DecidableEq, Repr

/-- Refusals: what the spec puts outside itself. -/
inductive Refusal where
  /-- A command with no meaning in the model. Raised by `exec`'s rejected arms; there are none left; safe. -/
  | notModelled (mnemonic : String)
  /-- `CFG` breaks a constraint of 00_scope.md R6 or R7. Raised by `step`; the spec refuses it (U7); safe. -/
  | configOutOfSpec
  /-- `cutoff` is outside (0, 1) where the filter is about to divide by `1 - cutoff`. Raised by TICK; the spec refuses
  it (U1); safe. -/
  | cutoffOutOfSpec
  /-- The instance of `NUM` let a phase advance leave `[0, TABLE_SIZE)`. Raised by TICK; the spec refuses such an
  instance (U4, 20_memory.md R40); safe. -/
  | phaseOutOfRange
  deriving DecidableEq, Repr

/-- A voice after RESET (R17 to R20, R29; log 9). -/
def Voice.reset : Voice where
  gate     := false
  pitch    := 0
  freq     := 0
  vel      := 0
  oscPhase := 0
  envStage := .idle
  envTime  := 0
  envRtime := 0
  envLast  := 0
  envAtt   := 0
  envStart := 0
  envGate  := false
  fltS0    := 0
  fltS1    := 0
  fltS2    := 0
  fltS3    := 0

/-- The control registers after RESET (R23, R29; log 10). -/
def Control.reset (c : Cfg) : Control where
  attack    := 0
  decay     := 0
  sustain   := c.num.ofInt 1
  release   := 0
  oscmix    := c.num.ofInt 1 :: List.replicate (c.nwaves - 1) 0
  cutoff    := c.num.ofRat (1 / 2)
  resonance := 0
  chorusmix := 0

/-- The chorus after RESET (R25, R27, R29; log 11). -/
def Chorus.reset (c : Cfg) : Chorus where
  wc       := 0
  lfoPhase := List.replicate c.chN 0
  buf      := []

/-- The delay after RESET (R26, R27, R29; log 11). -/
def Delay.reset : Delay where
  head := 0
  len  := 0
  buf  := []

/-- The state after construction with `c` and RESET (R29, 70_reset_and_hazards.md R160, R162). -/
def State.resetWith (c : Cfg) : State where
  cfg     := c
  voices  := List.replicate c.nvoices Voice.reset
  control := Control.reset c
  chorus  := Chorus.reset c
  delay   := Delay.reset
  pending := []
  outputs := []

/-- The machine right after RESET, with the configuration of log 3. -/
def State.reset : State := State.resetWith Cfg.reset

end Sys2Proof.Machine
end

