-- ==== Sys2Proof/Machine/Ops.lean ====
section
/-! DEFINITION. The shared operations: reading and writing a memory element (20_memory.md R35, R37, R43), taking the
next transaction (10_state.md R13), and RESET (70_reset_and_hazards.md R160). The block takes no exception and returns
from none (60_exceptions.md R140, R144), so there is no such operation. -/

namespace Sys2Proof.Machine

/-- What an element that nothing has written reads as: the reset content of both rings (10_state.md R27; log 16). -/
def Mem.blank : NumVal := 0

/-- The canonical form: indices strictly rising, no listed element equal to the reset content. -/
abbrev Mem.wf (m : Mem) : Prop := m.Pairwise (fun a b => a.1 < b.1) ∧ ∀ e ∈ m, e.2 ≠ Mem.blank

/-- `MemRead(M:i, 1)` (00_scope.md R10). -/
def Mem.read : Mem → Nat → NumVal
  | [], _ => Mem.blank
  | (j, y) :: m, i => if i = j then y else Mem.read m i

/-- Taking element `i` out of the list. -/
def Mem.erase : Mem → Nat → Mem
  | [], _ => []
  | (j, y) :: m, i => if i = j then m else (j, y) :: Mem.erase m i

/-- Putting element `i` in its place. -/
def Mem.insert : Mem → Nat → NumVal → Mem
  | [], i, x => [(i, x)]
  | (j, y) :: m, i, x =>
    if i < j then (i, x) :: (j, y) :: m else if i = j then (i, x) :: m else (j, y) :: Mem.insert m i x

/-- `MemWrite(M:i, 1, x)` (00_scope.md R10), keeping the canonical form. -/
def Mem.write (m : Mem) (i : Nat) (x : NumVal) : Mem := if x = Mem.blank then Mem.erase m i else Mem.insert m i x

/-- An element of a ROM (20_memory.md R35); one that the ROM does not have is a free value (log 17). -/
def romRead (rom : List NumVal) (i : Nat) : NumVal := rom.getD i Config.absentElement

/-- The index `n mod len` of a ring, `mod` being the mathematical residue (00_scope.md R9, 20_memory.md R39). -/
def ringIndex (n : Int) (len : Nat) : Nat := (n % (len : Int)).toNat

/-- RESET (R160): every register and memory to its reset value; `CFG` is not touched, nor what the host has issued or
received. -/
def resetTransaction (s : State) : State :=
  { State.resetWith s.cfg with pending := s.pending, outputs := s.outputs }

/-- The state once the oldest pending transaction is taken from the host. -/
def takeTransaction (s : State) : State := { s with pending := s.pending.tail }

end Sys2Proof.Machine
end

