-- ==== Sys2Proof/Machine/Oscillator.lean ====
section
/-! DEFINITION. Phase accumulator, interpolated table read, band selection, oscillator and LFO (spec
40_oscillator.md). -/

namespace Sys2Proof.Machine

/-- PHASE.ADVANCE(phase, f) (R60). The full modulo is what keeps the phase in the table for any frequency and starting
phase (R65). -/
def phaseAdvance (c : Cfg) (phase f : NumVal) : NumVal :=
  let inc := c.num.div (c.num.mul (c.num.ofInt c.tableSize) f) c.sampleRate
  let p := c.num.add phase inc
  c.num.sub p (c.num.mul (c.num.ofInt c.tableSize) (c.num.ofInt (c.num.floor (c.num.div p (c.num.ofInt c.tableSize)))))

/-- A phase lies in `[0, TABLE_SIZE)` and its floor is a table index (10_state.md R18, 20_memory.md R39, R40):
the property R65 that the reference `NUM` has of itself and another instance is checked for. -/
def phaseInRange (c : Cfg) (phase : NumVal) : Bool :=
  c.num.le (c.num.ofInt 0) phase && c.num.lt phase (c.num.ofInt c.tableSize) &&
  decide (0 ≤ c.num.floor phase) && decide (c.num.floor phase < c.tableSize)

/-- TABLE.READ(T, phase) (R61). -/
def tableRead (c : Cfg) (T : List NumVal) (phase : NumVal) : NumVal :=
  let i0 := (c.num.floor phase).toNat
  let fr := c.num.sub phase (c.num.ofInt i0)
  let i1 := (i0 + 1) % c.tableSize
  let a := romRead T i0
  let b := romRead T i1
  c.num.add a (c.num.mul fr (c.num.sub b a))

/-- BAND.SELECT(f) (R62): the number of thresholds `<= f`. -/
def bandSelect (c : Cfg) (f : NumVal) : Nat := c.bandThresh.countP (fun t => c.num.le t f)

/-- The tables of band `b`, by wave (20_memory.md R35). -/
def bandTables (c : Cfg) (b : Nat) : List (List NumVal) := c.wt.getD b []

/-- OSC.STEP(v) (R63): the voice with its new phase, and the sample read at that phase. -/
def oscStep (c : Cfg) (k : Control) (v : Voice) : Voice × NumVal :=
  let phase := phaseAdvance c v.oscPhase v.freq
  let tables := bandTables c (bandSelect c v.freq)
  ({ v with oscPhase := phase },
    c.num.sum (List.zipWith (fun m T => c.num.mul m (tableRead c T phase)) k.oscmix tables))

/-- The value of an LFO at a phase: a read of the sine of band 0 (R64). -/
def lfoValue (c : Cfg) (phase : NumVal) : NumVal := tableRead c c.lfoTable phase

end Sys2Proof.Machine
end

