-- ==== Sys2Proof/Machine/Chorus.lean ====
section
/-! DEFINITION. The multi-tap chorus (spec 44_chorus.md). -/

namespace Sys2Proof.Machine

/-- The chorus is bypassed exactly when `chorusmix <= CH_BYPASS` (R111). -/
def chorusBypassed (c : Cfg) (k : Control) : Bool := c.num.le k.chorusmix c.chBypass

/-- Every LFO advances once, LFO `j` at `ofInt(CH_MULT[j]) * CH_RATE` (R110, R113, 40_oscillator.md R64). -/
def lfoAdvanceAll (c : Cfg) (phases : List NumVal) : List NumVal :=
  List.zipWith (fun m phase => phaseAdvance c phase (c.num.mul (c.num.ofInt (m : Nat)) c.chRate)) c.chMult phases

/-- The read offset of a chorus voice whose LFO is at `phase` (R110, R112). -/
def tapOffset (c : Cfg) (phase : NumVal) : NumVal := c.num.add c.chBase (c.num.mul (lfoValue c phase) c.chDepth)

/-- The interpolated tap `off` behind the cursor `wc` (R110, R112, 20_memory.md R41). -/
def tapRead (c : Cfg) (buf : Mem) (wc : Nat) (off : NumVal) : NumVal :=
  let k := c.num.floor off
  let fr := c.num.sub off (c.num.ofInt k)
  let a := buf.read (ringIndex ((wc : Int) - k) c.chLen)
  let b := buf.read (ringIndex ((wc : Int) - k - 1) c.chLen)
  c.num.add a (c.num.mul fr (c.num.sub b a))

/-- CHO.STEP(x) (R110): the chorus after the call, and its output. -/
def choStep (c : Cfg) (k : Control) (ch : Chorus) (x : NumVal) : Chorus × NumVal :=
  let buf := ch.buf.write ch.wc x
  if chorusBypassed c k then ({ ch with buf := buf }, x)
  else
    let phases := lfoAdvanceAll c ch.lfoPhase
    let acc := c.num.sum (phases.map (fun phase => tapRead c buf ch.wc (tapOffset c phase)))
    let wet := c.num.div acc (c.num.ofInt c.chN)
    ({ wc := (ch.wc + 1) % c.chLen, lfoPhase := phases, buf := buf },
      c.num.add (c.num.mul x (c.num.sub (c.num.ofInt 1) k.chorusmix)) (c.num.mul wet k.chorusmix))

end Sys2Proof.Machine
end

