-- ==== Sys2Proof/Machine/Delay.lean ====
section
/-! DEFINITION. The fixed delay buffer (spec 45_delay.md), a FIFO held in a ring (20_memory.md R42). -/

namespace Sys2Proof.Machine

/-- The push: the input at the tail, one more element (R120, 20_memory.md R42). -/
def dlyPush (c : Cfg) (d : Delay) (x : NumVal) : Delay :=
  { d with buf := d.buf.write ((d.head + d.len) % c.dlCap) x, len := d.len + 1 }

/-- The pop: one element less, from the head (R120, 20_memory.md R42). -/
def dlyPop (c : Cfg) (d : Delay) : Delay × NumVal :=
  ({ d with head := (d.head + 1) % c.dlCap, len := d.len - 1 }, d.buf.read d.head)

/-- DLY.STEP(x) (R120): the delay after the call, and its output. -/
def dlyStep (c : Cfg) (d : Delay) (x : NumVal) : Delay × NumVal :=
  if c.dlOffset = 0 then (d, x)
  else
    let pushed := dlyPush c d x
    let popped := if c.dlOffset < pushed.len then dlyPop c pushed else (pushed, c.num.ofInt 0)
    (popped.1, c.num.add (c.num.mul c.dlDry x) (c.num.mul c.dlWet popped.2))

end Sys2Proof.Machine
end

