-- ==== Sys2Proof/Machine/Flags.lean ====
section
/-! DEFINITION. The flags (10_state.md R22): `gate[v]`, set by NOTE_ON and cleared by NOTE_OFF, and `env_gate[v]`, the
edge memory of ENV.STEP. No operation writes a flag as a side effect of arithmetic. -/

namespace Sys2Proof.Machine

/-- A voice is free when its gate is false, whatever its envelope does (43_voice_pool.md R90). -/
def Voice.isFree (v : Voice) : Bool := !v.gate

/-- `rising = g and not env_gate[v]` (41_envelope.md R71). -/
def risingEdge (g envGate : Bool) : Bool := g && !envGate

/-- `falling = (not g) and env_gate[v]` (41_envelope.md R71). -/
def fallingEdge (g envGate : Bool) : Bool := !g && envGate

/-- `gate[v] <- false` (43_voice_pool.md R91). -/
def Voice.clearGate (v : Voice) : Voice := { v with gate := false }

end Sys2Proof.Machine
end

