-- ==== Sys2Proof/Machine/Envelope.lean ====
section
/-! DEFINITION. The ADSR envelope state machine (spec 41_envelope.md). ENV.STEP is its parts in the order of R70. -/

namespace Sys2Proof.Machine

/-- `dt = ofInt(1) / SAMPLE_RATE` (R70). -/
def timeStep (c : Cfg) : NumVal := c.num.div (c.num.ofInt 1) c.sampleRate

/-- Step 1: gate edges (R71). -/
def envEdges (c : Cfg) (g : Bool) (v : Voice) : Voice :=
  if risingEdge g v.envGate then
    { v with envGate := g, envStage := .attack, envTime := c.num.ofInt 0, envStart := v.envAtt }
  else if fallingEdge g v.envGate then
    { v with envGate := g, envStage := .release, envRtime := c.num.ofInt 0, envLast := v.envAtt }
  else { v with envGate := g }

/-- Step 2: the automatic transition from Attack to DecaySustain (R72). -/
def envAuto (c : Cfg) (k : Control) (v : Voice) : Voice :=
  if v.envStage = .attack ∧ (c.num.le k.attack (c.num.ofInt 0) || c.num.le k.attack v.envTime) = true then
    { v with envStage := .decaySustain }
  else v

/-- Step 3 in stage Attack (R74). -/
def attackOutput (c : Cfg) (k : Control) (v : Voice) : NumVal :=
  c.num.add v.envStart (c.num.mul (c.num.sub (c.num.ofInt 1) v.envStart) (c.num.div v.envTime k.attack))

/-- Step 3 in stage DecaySustain (R75). -/
def decayOutput (c : Cfg) (k : Control) (v : Voice) : NumVal :=
  if c.num.lt (c.num.ofInt 0) k.decay then
    c.num.min (c.num.ofInt 1)
      (c.num.max (c.num.sub (c.num.ofInt 1) (c.num.div (c.num.sub v.envTime k.attack) k.decay)) k.sustain)
  else k.sustain

/-- Step 3 in stage Release (R76). -/
def releaseOutput (c : Cfg) (k : Control) (v : Voice) : NumVal :=
  if c.num.le k.release (c.num.ofInt 0) then c.num.ofInt 0
  else
    c.num.clamp (c.num.mul v.envLast (c.num.sub (c.num.ofInt 1) (c.num.div v.envRtime k.release)))
      (c.num.ofInt 0) v.envLast

/-- Step 3: the output of the current stage (R73 to R76). -/
def envOutput (c : Cfg) (k : Control) (v : Voice) : NumVal :=
  match v.envStage with
  | .idle => c.num.ofInt 0
  | .attack => attackOutput c k v
  | .decaySustain => decayOutput c k v
  | .release => releaseOutput c k v

/-- Step 4: timer advance, and Release to Idle when the output is 0 (R77). -/
def envTimers (c : Cfg) (out : NumVal) (v : Voice) : Voice :=
  match v.envStage with
  | .idle => v
  | .attack => { v with envTime := c.num.add v.envTime (timeStep c) }
  | .decaySustain => { v with envTime := c.num.add v.envTime (timeStep c) }
  | .release =>
    { v with
      envRtime := c.num.add v.envRtime (timeStep c)
      envStage := if c.num.eq out (c.num.ofInt 0) then .idle else .release }

/-- ENV.STEP(v, g) (R70): the voice with its new envelope registers, and the attenuation. -/
def envStep (c : Cfg) (k : Control) (g : Bool) (v : Voice) : Voice × NumVal :=
  let v₂ := envAuto c k (envEdges c g v)
  let out := envOutput c k v₂
  ({ envTimers c out v₂ with envAtt := out }, out)

end Sys2Proof.Machine
end

