-- ==== Sys2Proof/Machine/Filter.lean ====
section
/-! DEFINITION. The 4-pole low-pass filter (spec 42_filter.md). -/

namespace Sys2Proof.Machine

/-- `feedback = resonance + resonance / (1 - cutoff)` (R80). -/
def filterFeedback (c : Cfg) (k : Control) : NumVal :=
  c.num.add k.resonance (c.num.div k.resonance (c.num.sub (c.num.ofInt 1) k.cutoff))

/-- FLT.PROC(v, x) (R80): the voice with its new stages, and the last of them. -/
def fltProc (c : Cfg) (k : Control) (v : Voice) (x : NumVal) : Voice × NumVal :=
  let feedback := filterFeedback c k
  let bandpass := c.num.sub v.fltS0 v.fltS1
  let s0 := c.num.add v.fltS0 (c.num.mul k.cutoff (c.num.add (c.num.sub x v.fltS0) (c.num.mul feedback bandpass)))
  let s1 := c.num.add v.fltS1 (c.num.mul k.cutoff (c.num.sub s0 v.fltS1))
  let s2 := c.num.add v.fltS2 (c.num.mul k.cutoff (c.num.sub s1 v.fltS2))
  let s3 := c.num.add v.fltS3 (c.num.mul k.cutoff (c.num.sub s2 v.fltS3))
  ({ v with fltS0 := s0, fltS1 := s1, fltS2 := s2, fltS3 := s3 }, s3)

/-- `cutoff` lies in `(0, 1)`, or there is no filter to read it (10_state.md R24, 42_filter.md R81, U1). -/
def cutoffInSpec (c : Cfg) (k : Control) : Bool :=
  !c.filterEn || (c.num.lt (c.num.ofInt 0) k.cutoff && c.num.lt k.cutoff (c.num.ofInt 1))

end Sys2Proof.Machine
end

