-- ==== Sys2Proof/Machine/Engine.lean ====
section
/-! DEFINITION. The engine (spec 46_engine.md): one voice for one sample, TICK, NOP and the reserved command. -/

namespace Sys2Proof.Machine

/-- The optional filter of VOICE.STEP (R130, 42_filter.md R84). -/
def voiceFilter (c : Cfg) (k : Control) (v : Voice) (x : NumVal) : Voice × NumVal :=
  if c.filterEn then fltProc c k v x else (v, x)

/-- VOICE.STEP(v) (R130): oscillator, filter, envelope; the contribution is the product of sample and attenuation. -/
def voiceStep (c : Cfg) (k : Control) (v : Voice) : Voice × NumVal :=
  let osc := oscStep c k v
  let flt := voiceFilter c k osc.1 osc.2
  let env := envStep c k flt.1.gate flt.1
  (env.1, c.num.mul flt.2 env.2)

/-- The voices after VOICE.STEP of each: they share nothing but what no VOICE.STEP writes (R130; log 18). -/
def tickVoices (s : State) : List Voice := s.voices.map (fun v => (voiceStep s.cfg s.control v).1)

/-- The sum of the voices' contributions in ascending index (R131). -/
def tickSum (s : State) : NumVal := s.cfg.num.sum (s.voices.map (fun v => (voiceStep s.cfg s.control v).2))

/-- CHO.STEP on the unscaled sum (R131, R132). -/
def tickChorus (s : State) : Chorus × NumVal := choStep s.cfg s.control s.chorus (tickSum s)

/-- DLY.STEP on the chorus output (R131, R132). -/
def tickDelay (s : State) : Delay × NumVal := dlyStep s.cfg s.delay (tickChorus s).2

/-- `out = z * HEADROOM` (R131). -/
def tickOutput (s : State) : NumVal := s.cfg.num.mul (tickDelay s).2 s.cfg.headroom

/-- The state after a TICK (R131). -/
def tick (s : State) : State :=
  { s with
    voices := tickVoices s
    chorus := (tickChorus s).1
    delay := (tickDelay s).1
    outputs := s.outputs ++ [tickOutput s] }

/-- Every phase that this TICK advanced is in range (20_memory.md R40, U4): the oscillators', and the LFOs' unless the
chorus was bypassed. -/
def tickPhasesInRange (s : State) : Bool :=
  (tickVoices s).all (fun v => phaseInRange s.cfg v.oscPhase) &&
  (chorusBypassed s.cfg s.control || (lfoAdvanceAll s.cfg s.chorus.lfoPhase).all (phaseInRange s.cfg))

/-- TICK (R131). It refuses a `cutoff` outside `(0, 1)` (U1; log 5) and an instance of `NUM` whose phase advance leaves
the table (U4; log 6). -/
def execTick (s : State) : Host.Outcome State Fault Refusal :=
  if cutoffInSpec s.cfg s.control then
    if tickPhasesInRange s then .next (tick s) else .refused .phaseOutOfRange
  else .refused .cutoffOutOfSpec

/-- NOP (R134): no state is read or written. -/
def execNop (s : State) : Host.Outcome State Fault Refusal := .next s

/-- RSVD_OP3: executes as NOP (30_encoding.md R56). -/
def execRsvdOp3 (s : State) : Host.Outcome State Fault Refusal := .next s

end Sys2Proof.Machine
end

