-- ==== Sys2Proof/Machine/Operands.lean ====
section
/-! DEFINITION. What a data operand stands for (30_encoding.md R51, R52): an index of a ROM, or a fraction. -/

namespace Sys2Proof.Machine

/-- `PITCH_FREQ[p]` (R52, 43_voice_pool.md R90). -/
def pitchFrequency (c : Cfg) (p : Data7) : NumVal := romRead c.pitchFreq p.toNat

/-- `CC_TIME[val]` (R52, 43_voice_pool.md R92, R93, R95). -/
def timeOperand (c : Cfg) (val : Data7) : NumVal := romRead c.ccTime val.toNat

/-- `ofRat(val / 127)` (R52, 43_voice_pool.md R94, R96, R99). -/
def levelOperand (c : Cfg) (val : Data7) : NumVal := c.num.ofRat ((val.toNat : Rat) / 127)

/-- `ofRat((val + 1) / 129)` (R52, 43_voice_pool.md R97). -/
def cutoffOperand (c : Cfg) (val : Data7) : NumVal := c.num.ofRat (((val.toNat : Rat) + 1) / 129)

/-- `ofRat(val / 128)` (R52, 43_voice_pool.md R98). -/
def resonanceOperand (c : Cfg) (val : Data7) : NumVal := c.num.ofRat ((val.toNat : Rat) / 128)

/-- The triangular weight of mix slot `i` (43_voice_pool.md R96). -/
def mixWeight (c : Cfg) (x : NumVal) (i : Nat) : NumVal :=
  c.num.max (c.num.ofInt 0)
    (c.num.sub (c.num.ofInt 1)
      (c.num.div (c.num.abs (c.num.sub x (c.num.ofRat ((i : Rat) / ((c.nwaves : Rat) - 1)))))
        (c.num.ofRat (1 / ((c.nwaves : Rat) - 1)))))

/-- The `NWAVES` weights that one CC_OSCMIX writes (43_voice_pool.md R96). -/
def mixOperand (c : Cfg) (val : Data7) : List NumVal := (List.range c.nwaves).map (mixWeight c (levelOperand c val))

end Sys2Proof.Machine
end

