-- ==== Sys2Proof/Machine/VoicePool.lean ====
section
/-! DEFINITION. The note router and the control changes (spec 43_voice_pool.md). `chan` is ignored by every rule
(30_encoding.md R50). -/

namespace Sys2Proof.Machine

/-- The scan of NOTE_ON (R90): the first free voice takes the note; with none free nothing is written. -/
def allocate (p : Data7) (f : NumVal) (vel : Data7) : List Voice → List Voice
  | [] => []
  | v :: vs =>
    if v.isFree then { v with pitch := p, freq := f, vel := vel, gate := true } :: vs
    else v :: allocate p f vel vs

/-- The scan of NOTE_OFF (R91): every voice whose pitch matches loses its gate. -/
def releasePitch (p : Data7) (vs : List Voice) : List Voice := vs.map (fun v => if v.pitch = p then v.clearGate else v)

/-- NOTE_ON p, vel (R90). -/
def execNoteOn (p vel : Data7) (s : State) : Host.Outcome State Fault Refusal :=
  .next { s with voices := allocate p (pitchFrequency s.cfg p) vel s.voices }

/-- NOTE_OFF p (R91). -/
def execNoteOff (p : Data7) (s : State) : Host.Outcome State Fault Refusal :=
  .next { s with voices := releasePitch p s.voices }

/-- CC_ATTACK val (R92). -/
def execCcAttack (val : Data7) (s : State) : Host.Outcome State Fault Refusal :=
  .next { s with control := { s.control with attack := timeOperand s.cfg val } }

/-- CC_DECAY val (R93). -/
def execCcDecay (val : Data7) (s : State) : Host.Outcome State Fault Refusal :=
  .next { s with control := { s.control with decay := timeOperand s.cfg val } }

/-- CC_SUSTAIN val (R94). -/
def execCcSustain (val : Data7) (s : State) : Host.Outcome State Fault Refusal :=
  .next { s with control := { s.control with sustain := levelOperand s.cfg val } }

/-- CC_RELEASE val (R95). -/
def execCcRelease (val : Data7) (s : State) : Host.Outcome State Fault Refusal :=
  .next { s with control := { s.control with release := timeOperand s.cfg val } }

/-- CC_OSCMIX val (R96). -/
def execCcOscmix (val : Data7) (s : State) : Host.Outcome State Fault Refusal :=
  .next { s with control := { s.control with oscmix := mixOperand s.cfg val } }

/-- CC_CUTOFF val (R97). -/
def execCcCutoff (val : Data7) (s : State) : Host.Outcome State Fault Refusal :=
  .next { s with control := { s.control with cutoff := cutoffOperand s.cfg val } }

/-- CC_RESONANCE val (R98). -/
def execCcResonance (val : Data7) (s : State) : Host.Outcome State Fault Refusal :=
  .next { s with control := { s.control with resonance := resonanceOperand s.cfg val } }

/-- CC_CHORUSMIX val (R99). -/
def execCcChorusmix (val : Data7) (s : State) : Host.Outcome State Fault Refusal :=
  .next { s with control := { s.control with chorusmix := levelOperand s.cfg val } }

/-- CC_IGN, ids 8 to 15: writes nothing (R100, 30_encoding.md R54). -/
def execCcIgn0 (s : State) : Host.Outcome State Fault Refusal := .next s

/-- CC_IGN, ids 16 to 31: writes nothing (R100, 30_encoding.md R54). -/
def execCcIgn1 (s : State) : Host.Outcome State Fault Refusal := .next s

/-- CC_IGN, ids 32 to 63: writes nothing (R100, 30_encoding.md R54). -/
def execCcIgn2 (s : State) : Host.Outcome State Fault Refusal := .next s

/-- CC_IGN, ids 64 to 127: writes nothing (R100, 30_encoding.md R54). -/
def execCcIgn3 (s : State) : Host.Outcome State Fault Refusal := .next s

/-- EVT_IGN, categories 0x0 to 0x7: writes nothing (R100, 30_encoding.md R55). -/
def execEvtIgn0 (s : State) : Host.Outcome State Fault Refusal := .next s

/-- EVT_IGN, category 0xA: writes nothing (R100, 30_encoding.md R55). -/
def execEvtIgn1 (s : State) : Host.Outcome State Fault Refusal := .next s

/-- EVT_IGN, categories 0xC and 0xD: writes nothing (R100, 30_encoding.md R55). -/
def execEvtIgn2 (s : State) : Host.Outcome State Fault Refusal := .next s

/-- EVT_IGN, categories 0xE and 0xF: writes nothing (R100, 30_encoding.md R55). -/
def execEvtIgn3 (s : State) : Host.Outcome State Fault Refusal := .next s

end Sys2Proof.Machine
end

