-- ==== Sys2Proof/Machine/Dispatch.lean ====
section
/-! DEFINITION. One arm per command: which meaning each has. -/

namespace Sys2Proof.Machine

def exec (i : Instr) (s : State) : Host.Outcome State Fault Refusal :=
  match i with
  | .nop => Sys2Proof.Machine.execNop s
  | .tick => Sys2Proof.Machine.execTick s
  | .rsvdOp3 => Sys2Proof.Machine.execRsvdOp3 s
  | .noteOff _ pitch => Sys2Proof.Machine.execNoteOff pitch s
  | .noteOn _ pitch vel => Sys2Proof.Machine.execNoteOn pitch vel s
  | .ccAttack _ val => Sys2Proof.Machine.execCcAttack val s
  | .ccDecay _ val => Sys2Proof.Machine.execCcDecay val s
  | .ccSustain _ val => Sys2Proof.Machine.execCcSustain val s
  | .ccRelease _ val => Sys2Proof.Machine.execCcRelease val s
  | .ccOscmix _ val => Sys2Proof.Machine.execCcOscmix val s
  | .ccCutoff _ val => Sys2Proof.Machine.execCcCutoff val s
  | .ccResonance _ val => Sys2Proof.Machine.execCcResonance val s
  | .ccChorusmix _ val => Sys2Proof.Machine.execCcChorusmix val s
  | .ccIgn0 _ _ _ => Sys2Proof.Machine.execCcIgn0 s
  | .ccIgn1 _ _ _ => Sys2Proof.Machine.execCcIgn1 s
  | .ccIgn2 _ _ _ => Sys2Proof.Machine.execCcIgn2 s
  | .ccIgn3 _ _ _ => Sys2Proof.Machine.execCcIgn3 s
  | .evtIgn0 _ _ => Sys2Proof.Machine.execEvtIgn0 s
  | .evtIgn1 _ _ => Sys2Proof.Machine.execEvtIgn1 s
  | .evtIgn2 _ _ => Sys2Proof.Machine.execEvtIgn2 s
  | .evtIgn3 _ _ => Sys2Proof.Machine.execEvtIgn3 s

end Sys2Proof.Machine
end

