-- ==== Sys2Proof/Machine/Step.lean ====
section
/-! DEFINITION. One step: the oldest pending transaction, executed to completion (spec 10_state.md R13, 20_memory.md
R43, 60_exceptions.md R143). -/

namespace Sys2Proof.Machine

/-- A transaction on a state whose configuration is legal (R13). -/
def runTransaction (t : Transaction) (s : State) : Host.Outcome State Fault Refusal :=
  match t with
  | .reset => .next (resetTransaction s)
  | .command w => exec (decode s.cfg.codes w) s

/-- With nothing pending the block is idle (60_exceptions.md R148; log 7). A configuration outside the spec runs no
transaction (00_scope.md R7, U7; log 4). -/
def step (s : State) : Host.Outcome State Fault Refusal :=
  match s.pending with
  | [] => .next s
  | t :: _ => if s.cfg.legal then runTransaction t (takeTransaction s) else .refused .configOutOfSpec

/-- `s` with the command word of `nbits` bits as the transaction that the next step takes. A number that is wider than
a command word cannot be issued and leaves `s` as it is (log 15). -/
def State.withFetchWord (s : State) (nbits w : Nat) : State :=
  if w % 2 ^ nbits < 2 ^ 26 then
    { s with pending := .command (BitVec.ofNat 26 (w % 2 ^ nbits)) :: s.pending }
  else s

end Sys2Proof.Machine
end

