-- ==== Sys2Proof/Safety.lean ====
section
/-! DEFINITION. What a safe run is, in the terms the claims use: when a TICK runs, which states the spec's ranges allow
(10_state.md R17 to R27), what silence is (70_reset_and_hazards.md R161), which
configurations the spec admits, row by row (00_scope.md R6, R7), and sequences of transactions. -/

namespace Sys2Proof.Machine

/-- A TICK of this state is inside the spec: `cutoff` in `(0, 1)` (U1), and the instance of `NUM` keeps the phases in
range (U4). -/
structure State.TickRuns (s : State) : Prop where
  cutoff : cutoffInSpec s.cfg s.control = true
  phases : tickPhasesInRange s = true

/-- A TICK of this state is inside the spec, said without running it: the reference `NUM`, a legal `CFG`, `cutoff` in
`(0, 1)`. -/
structure State.TickReady (s : State) : Prop where
  exact  : s.cfg.num = .exact
  legal  : s.cfg.legal = true
  cutoff : cutoffInSpec s.cfg s.control = true

/-- The constraints of R6's table, row by row, and R7's two inequalities, in the configuration's own `NUM`; what U3 and
U7 call breaking a constraint is the negation of this. -/
structure Admitted (c : Cfg) : Prop where
  sampleRate      : c.num.lt (c.num.ofInt 0) c.sampleRate = true
  nvoices         : 1 ≤ c.nvoices
  nwaves          : 2 ≤ c.nwaves
  nbands          : 1 ≤ c.nbands
  thresholds      : c.bandThresh.length = c.nbands - 1
  threshAscending : ∀ (i : Nat) (a b : NumVal), c.bandThresh[i]? = some a → c.bandThresh[i + 1]? = some b →
    c.num.lt a b = true
  threshPositive  : ∀ a ∈ c.bandThresh, c.num.lt (c.num.ofInt 0) a = true
  tableSize       : 1 ≤ c.tableSize
  bands           : c.wt.length = c.nbands
  waves           : ∀ band ∈ c.wt, band.length = c.nwaves
  samples         : ∀ band ∈ c.wt, ∀ table ∈ band, table.length = c.tableSize
  lfoTable        : ∀ (band : List (List NumVal)) (table : List NumVal), c.wt[0]? = some band → band[0]? = some table →
    ∀ x ∈ table, c.num.le (c.num.ofInt (-1)) x = true ∧ c.num.le x (c.num.ofInt 1) = true
  pitches         : c.pitchFreq.length = 128
  pitchFreq       : ∀ f ∈ c.pitchFreq, c.num.le (c.num.ofInt 0) f = true
  times           : c.ccTime.length = 128
  ccTime          : ∀ x ∈ c.ccTime, c.num.le (c.num.ofInt 0) x = true
  ccTimeZero      : ∀ x, c.ccTime[0]? = some x → c.num.eq x (c.num.ofInt 0) = true
  chN             : 1 ≤ c.chN
  chLen           : 3 ≤ c.chLen
  chDepth         : c.num.le (c.num.ofInt 0) c.chDepth = true
  chRate          : c.num.le (c.num.ofInt 0) c.chRate = true
  multiples       : c.chMult.length = c.chN
  chMult          : ∀ m ∈ c.chMult, 1 ≤ m
  chBypass        : c.num.le (c.num.ofInt 0) c.chBypass = true
  chNear          : c.num.lt (c.num.ofInt 0) (c.num.sub c.chBase c.chDepth) = true
  chFar           : c.num.lt (c.num.add (c.num.add c.chBase c.chDepth) (c.num.ofInt 1)) (c.num.ofInt c.chLen) = true
  dlCap           : c.dlOffset + 1 ≤ c.dlCap
  codesOffOn      : c.codes.noteOff ≠ c.codes.noteOn
  codesOffCc      : c.codes.noteOff ≠ c.codes.cc
  codesOnCc       : c.codes.noteOn ≠ c.codes.cc

/-- `x` is in `[0, 1]`. -/
def InUnit (x : NumVal) : Prop := 0 ≤ x ∧ x ≤ 1

/-- `x` is in `[0, TABLE_SIZE)`, where R65 says that every phase stays (40_oscillator.md). -/
def InTable (c : Cfg) (x : NumVal) : Prop := 0 ≤ x ∧ x < (c.tableSize : Rat)

/-- The legal values of one voice's registers (R17 to R19), and what its envelope's stage says of them: the edge memory
is true exactly in Attack and DecaySustain (41_envelope.md R71), an Idle envelope is at 0 (R73), a Release never exceeds
the value it started from (R79). -/
structure Voice.Legal (c : Cfg) (v : Voice) : Prop where
  freq     : 0 ≤ v.freq
  phase    : InTable c v.oscPhase
  time     : 0 ≤ v.envTime
  rtime    : 0 ≤ v.envRtime
  last     : InUnit v.envLast
  att      : InUnit v.envAtt
  start    : InUnit v.envStart
  edge     : v.envGate = true ↔ (v.envStage = .attack ∨ v.envStage = .decaySustain)
  idle     : v.envStage = .idle → v.envAtt = 0
  released : v.envStage = .release → v.envAtt ≤ v.envLast

/-- The legal values of the control registers (R23). -/
structure Control.Legal (c : Cfg) (k : Control) : Prop where
  attack    : 0 ≤ k.attack
  decay     : 0 ≤ k.decay
  sustain   : InUnit k.sustain
  release   : 0 ≤ k.release
  oscmixLen : k.oscmix.length = c.nwaves
  oscmix    : ∀ m ∈ k.oscmix, InUnit m
  cutoff    : 0 < k.cutoff ∧ k.cutoff < 1
  resonance : 0 ≤ k.resonance ∧ k.resonance < 1
  chorusmix : InUnit k.chorusmix

/-- A ring of `len` elements in canonical form, with no element outside it. -/
def Mem.Within (m : Mem) (len : Nat) : Prop := Mem.wf m ∧ ∀ e ∈ m, e.1 < len

/-- The parts of the legal state that no arithmetic decides, under every instance of `NUM`: the sizes of the register
lists (R15, R16, R23, R25), the ring cursors and the delay's fill (R25, R26, 20_memory.md R42), the rings. -/
structure State.Shape (s : State) : Prop where
  voices   : s.voices.length = s.cfg.nvoices
  oscmix   : s.control.oscmix.length = s.cfg.nwaves
  lfoPhase : s.chorus.lfoPhase.length = s.cfg.chN
  wc       : s.chorus.wc < s.cfg.chLen
  chBuf    : Mem.Within s.chorus.buf s.cfg.chLen
  head     : s.delay.head < s.cfg.dlCap
  len      : s.delay.len ≤ s.cfg.dlOffset
  dlBuf    : Mem.Within s.delay.buf s.cfg.dlCap

/-- The invariant of the block under the reference `NUM` (70_reset_and_hazards.md R162): a legal `CFG`, every register
in its legal range, every list of its size. -/
structure State.Inv (s : State) : Prop where
  exact   : s.cfg.num = .exact
  legal   : s.cfg.legal = true
  shape   : s.Shape
  voices  : ∀ v ∈ s.voices, v.Legal s.cfg
  control : s.control.Legal s.cfg
  lfos    : ∀ p ∈ s.chorus.lfoPhase, InTable s.cfg p

/-- Silence (70_reset_and_hazards.md R161): no gate, no envelope away from Idle, both rings at their reset content. -/
structure State.Silent (s : State) : Prop where
  gates  : ∀ v ∈ s.voices, v.gate = false ∧ v.envGate = false ∧ v.envStage = .idle
  chorus : s.chorus.buf = []
  delay  : s.delay.buf = []

/-- Commands executed one after another, each to completion (10_state.md R13). -/
def execAll : List Instr → State → Host.Outcome State Fault Refusal
  | [], s => .next s
  | i :: is, s =>
    match exec i s with
    | .next t => execAll is t
    | .fault r => .fault r
    | .refused r => .refused r

/-- The phases that successive calls of OSC.STEP leave, one call per frequency, from any phase (40_oscillator.md R65). -/
def oscPhases (c : Cfg) (k : Control) : Voice → List NumVal → List NumVal
  | _, [] => []
  | x, f :: fs =>
    (oscStep c k { x with freq := f }).1.oscPhase :: oscPhases c k (oscStep c k { x with freq := f }).1 fs

/-- The live elements of the delay's ring, oldest first (20_memory.md R42). -/
def delayContents (c : Cfg) (d : Delay) : List NumVal :=
  (List.range d.len).map (fun t => d.buf.read ((d.head + t) % c.dlCap))

/-- The outputs of successive calls of DLY.STEP (45_delay.md R121). -/
def delayOutputs (c : Cfg) : Delay → List NumVal → List NumVal
  | _, [] => []
  | d, x :: xs => (dlyStep c d x).2 :: delayOutputs c (dlyStep c d x).1 xs

end Sys2Proof.Machine
end

