-- ==== Sys2Proof/Certificates/Slice0/Obligations.lean ====
section
/-! DEFINITION. The statements for the provers, from the spec's numbered rules. A statement over `TickRuns` holds for
every instance of `NUM`; one over `TickReady` is about the reference instance, exact rationals, as the spec marks it. -/

open Sys2Proof Sys2Proof.Machine

/-! ### Encoding (30_encoding.md) -/

/-- R49 to R53, R58: every field of every instruction survives encoding, for all distinct status codes (the
command word is decisions D1 and D35, the operand fields are log 14's, the EVT_IGN ranges log 13's). -/
def Obligations.DecodeOfEncodeIsIdentity : Prop :=
  ∀ (k : StatusCodes) (i : Instr), k.distinct = true → i.wellFormed k = true → decode k (encode k i) = i

/-- R49 to R51 (decisions D1, D26, D35): a decoded word is well formed, and encoding it again clears exactly the bits
that its row ignores (log 14). -/
def Obligations.EncodeOfDecodeClearsIgnoredBits : Prop :=
  ∀ (k : StatusCodes) (w : CmdWord),
    (decode k w).wellFormed k = true ∧ encode k (decode k w) = w &&& keptBits (decode k w)

/-- R53 (decisions D1, D26, D35): with the default status codes (log 12) the decoder follows the table of masks and
matches, whose rows are pairwise disjoint and cover all words. -/
def Obligations.OpcodeRowsSelectTheirInstruction : Prop :=
  (∀ w : CmdWord, ∀ r ∈ opcodeTable, w &&& r.mask = r.bits ↔ mnemonicOf (decode StatusCodes.midi w) = r.mnemonic) ∧
  (∀ w : CmdWord, ∃ r ∈ opcodeTable, w &&& r.mask = r.bits) ∧
  ∀ w : CmdWord, ∀ r ∈ opcodeTable, ∀ r' ∈ opcodeTable, w &&& r.mask = r.bits → w &&& r'.mask = r'.bits → r = r'

/-- 95_test_vectors.md V7 (decisions D1, D26, D29, D35; status codes log 12): words of each kind decode to what the spec
lists. -/
def Obligations.DecodesTheSpecWords : Prop :=
  decode StatusCodes.midi 0x0ABCDEF = .nop ∧ decode StatusCodes.midi 0x2FFFFFF = .tick ∧
  decode StatusCodes.midi 0x3000000 = .rsvdOp3 ∧ decode StatusCodes.midi 0x1903C64 = .noteOn 0 60 100 ∧
  decode StatusCodes.midi 0x19388E4 = .noteOn 3 8 100 ∧ decode StatusCodes.midi 0x1803C00 = .noteOff 0 60 ∧
  decode StatusCodes.midi 0x1B0027F = .ccSustain 0 127 ∧ decode StatusCodes.midi 0x1B08240 = .ccSustain 0 64 ∧
  decode StatusCodes.midi 0x1B00905 = .ccIgn0 0 9 5 ∧ decode StatusCodes.midi 0x1A00864 = .evtIgn1 0xA 0

/-- R51 (its masking is the spec's decision D26): the data operands are the low 7 bits of their bytes, and setting or
clearing bit 7 of a data byte changes nothing. -/
def Obligations.Bit7OfDataBytesIsDiscarded : Prop :=
  ∀ (k : StatusCodes) (w : CmdWord),
    (d1Field w).toNat = w.toNat / 256 % 128 ∧ (d2Field w).toNat = w.toNat % 128 ∧
    decode k (w ||| 0x0008080#26) = decode k w ∧ decode k (w &&& ~~~0x0008080#26) = decode k w

/-- R50 (decision D26): no rule looks at the channel. -/
def Obligations.ChannelIsIgnored : Prop :=
  ∀ (k : StatusCodes) (w : CmdWord) (chan : Nibble) (s : State),
    exec (decode k (w &&& ~~~0x00F0000#26 ||| chan.zeroExtend 26 <<< 16)) s = exec (decode k w) s

/-! ### The step (10_state.md, 60_exceptions.md, 70_reset_and_hazards.md) -/

/-- R13, R43: a pending command word is taken from the host, decoded and executed (the list of pending transactions is
the model's, log 7). -/
def Obligations.StepRunsTheDecodedCommand : Prop :=
  ∀ (s : State) (w : CmdWord) (rest : List Transaction),
    s.pending = .command w :: rest → s.cfg.legal = true →
    step s = exec (decode s.cfg.codes w) { s with pending := rest }

/-- R148: with nothing pending the block is idle and loses nothing (log 7). -/
def Obligations.IdleStepChangesNothing : Prop :=
  ∀ s : State, s.pending = [] → step s = .next s

/-- R29, R160 (values by decisions D11 to D13): RESET gives every register and memory its reset value, and touches
neither `CFG` nor what the host has issued or received. -/
def Obligations.ResetGivesEveryRegisterItsResetValue : Prop :=
  ∀ (s : State) (rest : List Transaction), s.pending = .reset :: rest → s.cfg.legal = true →
    ∃ t, step s = .next t ∧ t.cfg = s.cfg ∧ t.pending = rest ∧ t.outputs = s.outputs ∧
      t.voices.length = s.cfg.nvoices ∧
      (∀ v ∈ t.voices, v.gate = false ∧ v.pitch = 0 ∧ v.freq = 0 ∧ v.vel = 0 ∧ v.oscPhase = 0 ∧ v.envStage = .idle ∧
        v.envTime = 0 ∧ v.envRtime = 0 ∧ v.envLast = 0 ∧ v.envAtt = 0 ∧ v.envStart = 0 ∧ v.envGate = false ∧
        v.fltS0 = 0 ∧ v.fltS1 = 0 ∧ v.fltS2 = 0 ∧ v.fltS3 = 0) ∧
      t.control.attack = 0 ∧ t.control.decay = 0 ∧ t.control.sustain = s.cfg.num.ofInt 1 ∧ t.control.release = 0 ∧
      t.control.oscmix.length = s.cfg.nwaves ∧ t.control.oscmix[0]? = some (s.cfg.num.ofInt 1) ∧
      (∀ w, 1 ≤ w → w < s.cfg.nwaves → t.control.oscmix[w]? = some 0) ∧
      t.control.cutoff = s.cfg.num.ofRat (1 / 2) ∧ t.control.resonance = 0 ∧ t.control.chorusmix = 0 ∧
      t.chorus.wc = 0 ∧ t.chorus.lfoPhase.length = s.cfg.chN ∧ (∀ p ∈ t.chorus.lfoPhase, p = 0) ∧
      (∀ i, t.chorus.buf.read i = 0) ∧ t.delay.head = 0 ∧ t.delay.len = 0 ∧ ∀ i, t.delay.buf.read i = 0

/-- R7, U7: a `CFG` whose chorus parameters break one of the two inequalities is refused. The spec refuses it at
construction; that the model refuses it at a step with a pending transaction is its own choice (DESIGN CHOICE, log 4).
-/
def Obligations.ChorusParametersOutsideTheSpecAreRefused : Prop :=
  ∀ s : State, s.pending ≠ [] →
    (s.cfg.num.lt (s.cfg.num.ofInt 0) (s.cfg.num.sub s.cfg.chBase s.cfg.chDepth) = false ∨
      s.cfg.num.lt (s.cfg.num.add (s.cfg.num.add s.cfg.chBase s.cfg.chDepth) (s.cfg.num.ofInt 1))
        (s.cfg.num.ofInt s.cfg.chLen) = false) →
    step s = .refused .configOutOfSpec

/-- R6, R7, U3, U7: a `CFG` is refused exactly when it breaks a constraint of R6's table or of R7. The spec refuses it
at construction; that the model refuses it at a step with a pending transaction is its own choice (DESIGN CHOICE, log
4). -/
def Obligations.ExactlyTheConfigurationsOutsideTheSpecAreRefused : Prop :=
  ∀ s : State, s.pending ≠ [] → (step s = .refused .configOutOfSpec ↔ ¬ Admitted s.cfg)

/-- R46: no transaction writes the ROMs, nor anything else of `CFG`. -/
def Obligations.NoTransactionWritesTheConfiguration : Prop :=
  (∀ (i : Instr) (s t : State), exec i s = .next t → t.cfg = s.cfg) ∧ ∀ s t : State, step s = .next t → t.cfg = s.cfg

/-- R140, R144: a step ends in a next state, or the spec puts the state outside itself: a `CFG` that breaks R6 or R7
(U7), a `cutoff` outside (0, 1) (U1), or an instance of `NUM` other than the reference one that lets a phase leave the
table (U4). -/
def Obligations.StopsOnlyOutsideTheSpec : Prop :=
  ∀ s : State, (∃ t, step s = .next t) ∨
    (step s = .refused .configOutOfSpec ∧ s.cfg.legal = false) ∨
    (step s = .refused .cutoffOutOfSpec ∧ cutoffInSpec s.cfg s.control = false) ∨
    (step s = .refused .phaseOutOfRange ∧ s.cfg.num ≠ .exact)

/-- U1, U4 (93_implementation_defined.md): what TICK refuses, and by which name (log 5, 6). -/
def Obligations.TickRefusesOutOfSpecStatesByName : Prop :=
  ∀ s : State,
    (cutoffInSpec s.cfg s.control = false → exec .tick s = .refused .cutoffOutOfSpec) ∧
    (cutoffInSpec s.cfg s.control = true → tickPhasesInRange s = false → exec .tick s = .refused .phaseOutOfRange)

/-! ### Commands that write nothing (30_encoding.md R54 to R56, 46_engine.md R134) -/

/-- R55: an event whose category is none of the three codes is one of the four EVT_IGN commands, and those change no
state and produce no output. -/
def Obligations.UnrecognisedEventsAreIgnored : Prop :=
  (∀ (k : StatusCodes) (w : CmdWord) (s : State),
    opField w = 1 → catField w ≠ k.noteOff → catField w ≠ k.noteOn → catField w ≠ k.cc →
    exec (decode k w) s = .next s) ∧
  ∀ (cat chan : Nibble) (s : State),
    exec (.evtIgn0 cat chan) s = .next s ∧ exec (.evtIgn1 cat chan) s = .next s ∧
    exec (.evtIgn2 cat chan) s = .next s ∧ exec (.evtIgn3 cat chan) s = .next s

/-- R54, R56, R134 (decisions D27, D29): unmapped controller ids, NOP and the reserved command change nothing. -/
def Obligations.UnmappedControlsAndIdleCommandsChangeNothing : Prop :=
  ∀ (chan : Nibble) (id val : Data7) (s : State),
    exec (.ccIgn0 chan id val) s = .next s ∧ exec (.ccIgn1 chan id val) s = .next s ∧
    exec (.ccIgn2 chan id val) s = .next s ∧ exec (.ccIgn3 chan id val) s = .next s ∧
    exec .nop s = .next s ∧ exec .rsvdOp3 s = .next s

/-! ### Notes (43_voice_pool.md) -/

/-- R21, R103 (and the pseudocode of R90): NOTE_ON takes the first voice whose gate is false and writes its `gate`,
`pitch`, `freq` and `vel`; nothing else changes. -/
def Obligations.NoteOnTakesTheFirstFreeVoice : Prop :=
  ∀ (s : State) (chan : Nibble) (p vel : Data7) (f : NumVal) (v : Nat) (x : Voice),
    s.cfg.pitchFreq[p.toNat]? = some f → s.voices[v]? = some x → x.gate = false →
    (∀ (u : Nat) (y : Voice), u < v → s.voices[u]? = some y → y.gate = true) →
    exec (.noteOn chan p vel) s =
      .next { s with voices := s.voices.set v { x with pitch := p, freq := f, vel := vel, gate := true } }

/-- R90: with no free voice NOTE_ON is dropped. -/
def Obligations.NoteOnWithoutFreeVoiceIsDropped : Prop :=
  ∀ (s : State) (chan : Nibble) (p vel : Data7), (∀ x ∈ s.voices, x.gate = true) →
    exec (.noteOn chan p vel) s = .next s

/-- R91: NOTE_OFF clears the gate of every voice whose pitch matches and writes nothing else; for a pitch not held it is
a no-op. -/
def Obligations.NoteOffReleasesEveryMatch : Prop :=
  ∀ (s : State) (chan : Nibble) (p : Data7),
    (∃ t, exec (.noteOff chan p) s = .next t ∧ t = { s with voices := t.voices } ∧
      t.voices.length = s.voices.length ∧
      ∀ (v : Nat) (x : Voice), s.voices[v]? = some x →
        t.voices[v]? = some (if x.pitch = p then { x with gate := false } else x)) ∧
    ((∀ x ∈ s.voices, x.gate = true → x.pitch ≠ p) → exec (.noteOff chan p) s = .next s)

/-- R102: on a pool of `n` voices, all free, `n + 1` note-ons leave the first `n` notes in the voices in order, and the
last one is dropped. -/
def Obligations.PoolOverflowKeepsTheFirstNotes : Prop :=
  ∀ (s : State) (notes : List (Nibble × Data7 × Data7)),
    (∀ x ∈ s.voices, x.gate = false) → notes.length = s.voices.length + 1 →
    ∃ t, execAll (notes.map (fun n => .noteOn n.1 n.2.1 n.2.2)) s = .next t ∧ t = { s with voices := t.voices } ∧
      t.voices.length = s.voices.length ∧
      ∀ (v : Nat) (x : Voice) (n : Nibble × Data7 × Data7) (f : NumVal),
        s.voices[v]? = some x → notes[v]? = some n → s.cfg.pitchFreq[n.2.1.toNat]? = some f →
        t.voices[v]? = some { x with pitch := n.2.1, freq := f, vel := n.2.2, gate := true }

/-! ### Control changes (43_voice_pool.md) -/

/-- R93, R95 (and R92, whose table is decision D5): the times come from `CC_TIME`, which every legal `CFG` has 128
entries of, 0 at 0, and, with this hardware's values, 0, 1, 3, 7 at 0, 33, 66, 99. -/
def Obligations.EnvelopeTimesComeFromTheTable : Prop :=
  (∀ (s : State) (chan : Nibble) (val : Data7) (x : NumVal), s.cfg.ccTime[val.toNat]? = some x →
    exec (.ccAttack chan val) s = .next { s with control := { s.control with attack := x } } ∧
    exec (.ccDecay chan val) s = .next { s with control := { s.control with decay := x } } ∧
    exec (.ccRelease chan val) s = .next { s with control := { s.control with release := x } }) ∧
  (∀ (c : Cfg) (val : Data7), c.legal = true → ∃ x, c.ccTime[val.toNat]? = some x) ∧
  (∀ c : Cfg, c.num = .exact → c.legal = true → c.ccTime[0]? = some 0) ∧
  ∀ c : Cfg, c.hardwareValues = true → c.ccTime[0]? = some (c.num.ofInt 0) ∧ c.ccTime[33]? = some (c.num.ofInt 1) ∧
    c.ccTime[66]? = some (c.num.ofInt 3) ∧ c.ccTime[99]? = some (c.num.ofInt 7)

/-- R94: CC_SUSTAIN sets `sustain` to `val / 127`, in particular to 0 and 1 at the ends. -/
def Obligations.SustainIsTheValueOver127 : Prop :=
  ∀ (s : State) (chan : Nibble) (val : Data7),
    exec (.ccSustain chan val) s =
      .next { s with control := { s.control with sustain := s.cfg.num.ofRat ((val.toNat : Rat) / 127) } } ∧
    (s.cfg.num = .exact →
      exec (.ccSustain chan 127) s = .next { s with control := { s.control with sustain := 1 } } ∧
      exec (.ccSustain chan 0) s = .next { s with control := { s.control with sustain := 0 } })

/-- R96: CC_OSCMIX writes all `NWAVES` weights by the triangular law, in the rule's own operations, and nothing else. -/
def Obligations.OscmixFollowsTheTriangularLaw : Prop :=
  ∀ (s : State) (chan : Nibble) (val : Data7),
    ∃ t, exec (.ccOscmix chan val) s = .next t ∧
      t = { s with control := { s.control with oscmix := t.control.oscmix } } ∧
      t.control.oscmix.length = s.cfg.nwaves ∧
      ∀ i, i < s.cfg.nwaves → t.control.oscmix[i]? = some
        (s.cfg.num.max (s.cfg.num.ofInt 0)
          (s.cfg.num.sub (s.cfg.num.ofInt 1)
            (s.cfg.num.div
              (s.cfg.num.abs (s.cfg.num.sub (s.cfg.num.ofRat ((val.toNat : Rat) / 127))
                (s.cfg.num.ofRat ((i : Rat) / ((s.cfg.nwaves : Rat) - 1)))))
              (s.cfg.num.ofRat (1 / ((s.cfg.nwaves : Rat) - 1))))))

/-- R96 (its consequence): under exact arithmetic the weights are in `[0, 1]` and sum to 1. -/
def Obligations.OscmixWeightsSumToOne : Prop :=
  ∀ (s : State) (chan : Nibble) (val : Data7), s.cfg.num = .exact → 2 ≤ s.cfg.nwaves →
    ∃ t, exec (.ccOscmix chan val) s = .next t ∧ t.control.oscmix.sum = 1 ∧ ∀ m ∈ t.control.oscmix, InUnit m

/-- R97, R98, R99 (decision D27): the values of the three registers the source maps no id to, inside their legal
ranges under exact arithmetic (R24). -/
def Obligations.CutoffResonanceAndChorusmixValues : Prop :=
  ∀ (s : State) (chan : Nibble) (val : Data7),
    exec (.ccCutoff chan val) s =
      .next { s with control := { s.control with cutoff := s.cfg.num.ofRat (((val.toNat : Rat) + 1) / 129) } } ∧
    exec (.ccResonance chan val) s =
      .next { s with control := { s.control with resonance := s.cfg.num.ofRat ((val.toNat : Rat) / 128) } } ∧
    exec (.ccChorusmix chan val) s =
      .next { s with control := { s.control with chorusmix := s.cfg.num.ofRat ((val.toNat : Rat) / 127) } } ∧
    (0 < ((val.toNat : Rat) + 1) / 129 ∧ ((val.toNat : Rat) + 1) / 129 < 1) ∧
    (0 ≤ (val.toNat : Rat) / 128 ∧ (val.toNat : Rat) / 128 < 1) ∧
    (0 ≤ (val.toNat : Rat) / 127 ∧ (val.toNat : Rat) / 127 ≤ 1)

/-- R22, R23, R28: only NOTE_ON and NOTE_OFF write a note register, only a control change writes a control register,
and no command but TICK writes an oscillator, envelope or filter register, the chorus, the delay or the output. Every
command but TICK completes in every state. -/
def Obligations.EachRegisterHasItsWriters : Prop :=
  ∀ (i : Instr) (s : State), i ≠ .tick →
    ∃ t, exec i s = .next t ∧ t.cfg = s.cfg ∧ t.pending = s.pending ∧ t.chorus = s.chorus ∧ t.delay = s.delay ∧
      t.outputs = s.outputs ∧ t.voices.length = s.voices.length ∧
      (∀ (v : Nat) (x : Voice), s.voices[v]? = some x → ∃ y, t.voices[v]? = some y ∧
        y = { x with gate := y.gate, pitch := y.pitch, freq := y.freq, vel := y.vel }) ∧
      ((∀ chan p, i ≠ .noteOff chan p) → (∀ chan p vel, i ≠ .noteOn chan p vel) → t.voices = s.voices) ∧
      ((∀ chan val, i ≠ .ccAttack chan val) → t.control.attack = s.control.attack) ∧
      ((∀ chan val, i ≠ .ccDecay chan val) → t.control.decay = s.control.decay) ∧
      ((∀ chan val, i ≠ .ccSustain chan val) → t.control.sustain = s.control.sustain) ∧
      ((∀ chan val, i ≠ .ccRelease chan val) → t.control.release = s.control.release) ∧
      ((∀ chan val, i ≠ .ccOscmix chan val) → t.control.oscmix = s.control.oscmix) ∧
      ((∀ chan val, i ≠ .ccCutoff chan val) → t.control.cutoff = s.control.cutoff) ∧
      ((∀ chan val, i ≠ .ccResonance chan val) → t.control.resonance = s.control.resonance) ∧
      ((∀ chan val, i ≠ .ccChorusmix chan val) → t.control.chorusmix = s.control.chorusmix)

/-! ### TICK as a whole (46_engine.md) -/

/-- R131: under exact arithmetic TICK completes, returns one sample, and changes no control register, `gate`, `pitch`,
`freq` or `vel`. -/
def Obligations.TickCompletesAndLeavesNotesAndControls : Prop :=
  ∀ s : State, s.TickReady →
    ∃ t out, exec .tick s = .next t ∧ t.outputs = s.outputs ++ [out] ∧ t.cfg = s.cfg ∧ t.pending = s.pending ∧
      t.control = s.control ∧ t.voices.length = s.voices.length ∧
      ∀ (v : Nat) (x : Voice), s.voices[v]? = some x → ∃ y, t.voices[v]? = some y ∧
        y.gate = x.gate ∧ y.pitch = x.pitch ∧ y.freq = x.freq ∧ y.vel = x.vel

/-- R132: voices, then chorus, then delay, then headroom: the chorus stores the unscaled sum of the contributions, the
delay stores the chorus output, and the sample is the delay's output times `HEADROOM` (R131). That the sum starts at
`ofInt 0` and adds in ascending index is decision D30 (logs 18 and 20); the tail of the delay's ring is decision D8. -/
def Obligations.PipelineOrderIsFixed : Prop :=
  ∀ s : State, s.TickRuns → Mem.wf s.chorus.buf → Mem.wf s.delay.buf →
    ∃ t sum y z, exec .tick s = .next t ∧
      sum = (s.voices.map (fun x => (voiceStep s.cfg s.control x).2)).foldl (fun a b => s.cfg.num.add a b)
        (s.cfg.num.ofInt 0) ∧
      (t.chorus, y) = choStep s.cfg s.control s.chorus sum ∧ t.chorus.buf.read s.chorus.wc = sum ∧
      (t.delay, z) = dlyStep s.cfg s.delay y ∧
      (0 < s.cfg.dlOffset → t.delay.buf.read ((s.delay.head + s.delay.len) % s.cfg.dlCap) = y) ∧
      t.outputs = s.outputs ++ [s.cfg.num.mul z s.cfg.headroom]

/-- R35, R110, R120: of `ch_buf` a TICK writes element `ch_wc` only, of `dl_buf` element `(dl_head + dl_len) mod DL_CAP`
only (decision D8), and none when `DL_OFFSET = 0` (decision D32; log 20). -/
def Obligations.TickWritesOneElementOfEachRing : Prop :=
  ∀ s : State, s.TickRuns →
    ∃ t, exec .tick s = .next t ∧
      (∀ i, i ≠ s.chorus.wc → t.chorus.buf.read i = s.chorus.buf.read i) ∧
      (∀ i, s.cfg.dlOffset = 0 ∨ i ≠ (s.delay.head + s.delay.len) % s.cfg.dlCap →
        t.delay.buf.read i = s.delay.buf.read i)

/-- R161 (and R131's corner case): under exact arithmetic a silent state answers a TICK with the sample 0 and stays
silent. -/
def Obligations.SilenceLasts : Prop :=
  ∀ s : State, s.TickReady → s.Silent →
    ∃ t, exec .tick s = .next t ∧ t.outputs = s.outputs ++ [0] ∧ t.Silent ∧ t.TickReady

/-- R161 (reset values: decisions D11 to D13, logs 9 to 11; that the bypassed cursor stays is decision D23): from RESET
a NOTE_ON sounds at full level at the next TICK: the sine of its band at the first new phase, through the filter's four
halvings, past the chorus, then the delay's dry path and the headroom; the other voices are still silent. -/
def Obligations.FirstSampleOfANoteFromReset : Prop :=
  ∀ (c : Cfg) (chan : Nibble) (p vel : Data7) (f : NumVal) (band : List (List NumVal)) (sine : List NumVal),
    c.num = .exact → c.legal = true → c.pitchFreq[p.toNat]? = some f → c.wt[bandSelect c f]? = some band →
    band[0]? = some sine →
    ∃ t u y, exec (.noteOn chan p vel) (State.resetWith c) = .next t ∧ exec .tick t = .next u ∧
      u.voices[0]? = some y ∧ y.envAtt = 1 ∧ y.envStage = .decaySustain ∧ y.oscPhase = phaseAdvance c 0 f ∧
      (∀ (v : Nat) (z : Voice), u.voices[v + 1]? = some z → z.envAtt = 0 ∧ z.envStage = .idle) ∧
      u.chorus.wc = 0 ∧
      u.outputs = [(if c.dlOffset = 0 then 1 else c.dlDry) *
        ((if c.filterEn = true then 1 / 16 else 1) * tableRead c sine (phaseAdvance c 0 f)) * c.headroom]

/-! ### Phase accumulator, oscillator, LFO (40_oscillator.md) -/

/-- R60, R65 (the full modulo is decision D14): the phase of every voice advances by `TABLE_SIZE * freq / SAMPLE_RATE`
modulo `TABLE_SIZE`, stays in the table, and stands still at frequency 0. -/
def Obligations.OscillatorPhaseAdvancesModuloTheTable : Prop :=
  ∀ (s : State) (v : Nat) (x : Voice), s.TickReady → s.voices[v]? = some x →
    ∃ t y, exec .tick s = .next t ∧ t.voices[v]? = some y ∧
      (∃ p : Rat, p = x.oscPhase + (s.cfg.tableSize : Rat) * x.freq / s.cfg.sampleRate ∧
        y.oscPhase = p - (s.cfg.tableSize : Rat) * (⌊p / (s.cfg.tableSize : Rat)⌋ : Rat)) ∧
      InTable s.cfg y.oscPhase ∧ (x.freq = 0 → InTable s.cfg x.oscPhase → y.oscPhase = x.oscPhase)

/-- R65 (the full modulo is decision D14): for any frequencies and any starting phase, repeated calls of OSC.STEP keep
the phase in the table. After any number of calls it is one advance by the frequencies' sum, so an accumulated sum of
whole tables returns it to its start. -/
def Obligations.RepeatedOscillatorStepsKeepThePhaseInTheTable : Prop :=
  ∀ (c : Cfg) (k : Control) (x : Voice) (freqs : List NumVal), c.num = .exact → c.legal = true →
    (oscPhases c k x freqs).length = freqs.length ∧ (∀ p ∈ oscPhases c k x freqs, InTable c p) ∧
    ∀ (n : Nat) (p : NumVal), (oscPhases c k x freqs)[n]? = some p →
      p = phaseAdvance c x.oscPhase (freqs.take (n + 1)).sum ∧
      ∀ m : Nat, (freqs.take (n + 1)).sum = (m : Rat) * c.sampleRate → InTable c x.oscPhase → p = x.oscPhase

/-- R60, R65 (the full modulo is decision D14): phase advances add up, and a whole number of tables returns the phase to
its start. -/
def Obligations.PhaseAdvancesAddUp : Prop :=
  ∀ (c : Cfg) (phase f g : NumVal) (n : Nat), c.num = .exact → c.legal = true →
    phaseAdvance c (phaseAdvance c phase f) g = phaseAdvance c phase (f + g) ∧
    (InTable c phase → phaseAdvance c phase ((n : Rat) * c.sampleRate) = phase)

/-- R61 (the form is decision D16): a read is `a + fr * (b - a)` of the two neighbours, the second wrapped; it lies
between them, and is the element itself at a whole phase. -/
def Obligations.TableReadInterpolatesItsNeighbours : Prop :=
  ∀ (c : Cfg) (T : List NumVal) (phase a b : NumVal), c.num = .exact → InTable c phase →
    T[⌊phase⌋.toNat]? = some a → T[(⌊phase⌋.toNat + 1) % c.tableSize]? = some b →
    tableRead c T phase = a + (phase - (⌊phase⌋ : Rat)) * (b - a) ∧
    min a b ≤ tableRead c T phase ∧ tableRead c T phase ≤ max a b ∧
    ((⌊phase⌋ : Rat) = phase → tableRead c T phase = a)

/-- R62 (equality goes up by decision D15): threshold `k` is at or below the frequency exactly when the band is above
`k`; so the band is 0 below the first threshold and `NBANDS - 1` from the last one on. -/
def Obligations.BandIsTheNumberOfThresholdsReached : Prop :=
  ∀ (c : Cfg) (f : NumVal), c.num = .exact → c.legal = true →
    bandSelect c f < c.nbands ∧ ∀ k t, c.bandThresh[k]? = some t → (k < bandSelect c f ↔ t ≤ f)

/-- R63 (one phase for all bands: decision D4): the oscillator's sample is the sum over all waves of weight times read,
at the new phase, from the tables of the selected band; of the voice only the phase changes. -/
def Obligations.OscillatorSumsItsWaves : Prop :=
  ∀ (c : Cfg) (k : Control) (x : Voice), c.num = .exact → c.legal = true → k.oscmix.length = c.nwaves →
    ∃ band, c.wt[bandSelect c x.freq]? = some band ∧
      (oscStep c k x).1 = { x with oscPhase := phaseAdvance c x.oscPhase x.freq } ∧
      (oscStep c k x).2 = ((List.range c.nwaves).map
        (fun w => k.oscmix.getD w 0 * tableRead c (band.getD w []) (phaseAdvance c x.oscPhase x.freq))).sum

/-! ### Envelope (41_envelope.md) -/

/-- R73 (that RESET leaves Idle is decision D11): an Idle envelope that sees no edge outputs 0 and stays Idle, its
registers untouched; Idle is the reset stage. -/
def Obligations.IdleEnvelopeStaysAtZero : Prop :=
  (∀ (s : State) (v : Nat) (x : Voice), s.TickRuns → s.voices[v]? = some x → x.envStage = .idle → x.gate = x.envGate →
    ∃ t y, exec .tick s = .next t ∧ t.voices[v]? = some y ∧ y.envAtt = s.cfg.num.ofInt 0 ∧ y.envStage = .idle ∧
      y.envTime = x.envTime ∧ y.envRtime = x.envRtime ∧ y.envLast = x.envLast ∧ y.envStart = x.envStart ∧
      y.envGate = x.envGate) ∧
  ∀ v ∈ State.reset.voices, v.envStage = .idle

/-- R71, R72, R74, R75 (decisions D18, D19, D21, D22): a rising edge restarts the timer and starts from the last output;
with `attack > 0` the first Attack output is that output, with `attack <= 0` the envelope is in DecaySustain at once. -/
def Obligations.RisingEdgeStartsFromTheLastOutput : Prop :=
  ∀ (s : State) (v : Nat) (x : Voice), s.TickReady → s.voices[v]? = some x → x.gate = true → x.envGate = false →
    ∃ t y, exec .tick s = .next t ∧ t.voices[v]? = some y ∧ y.envGate = true ∧ y.envStart = x.envAtt ∧
      y.envTime = 1 / s.cfg.sampleRate ∧ y.envRtime = x.envRtime ∧ y.envLast = x.envLast ∧
      (0 < s.control.attack → y.envStage = .attack ∧ y.envAtt = x.envAtt) ∧
      (s.control.attack ≤ 0 → y.envStage = .decaySustain ∧
        (s.control.decay ≤ 0 → y.envAtt = s.control.sustain) ∧
        (0 < s.control.decay →
          y.envAtt = min 1 (max (1 - (0 - s.control.attack) / s.control.decay) s.control.sustain)))

/-- R74 (the ramp from a non-zero start is decision D19, the timer's step decision D18): before the timer reaches
`attack` the output is on the line from `env_start` to 1; from a start of 0 it is `env_time / attack`. -/
def Obligations.AttackIsALinearRamp : Prop :=
  ∀ (s : State) (v : Nat) (x : Voice), s.TickReady → s.voices[v]? = some x → x.gate = true → x.envGate = true →
    x.envStage = .attack → x.envTime < s.control.attack → 0 < s.control.attack →
    ∃ t y, exec .tick s = .next t ∧ t.voices[v]? = some y ∧ y.envStage = .attack ∧
      y.envAtt = x.envStart + (1 - x.envStart) * (x.envTime / s.control.attack) ∧
      (x.envStart = 0 → y.envAtt = x.envTime / s.control.attack) ∧
      y.envTime = x.envTime + 1 / s.cfg.sampleRate ∧ y.envStart = x.envStart ∧ y.envGate = true ∧
      y.envRtime = x.envRtime ∧ y.envLast = x.envLast

/-- R72, R74, R75: Attack turns to DecaySustain when `attack <= 0` or the timer has reached `attack`, in the step of the
rising edge and in every later one; the output of that very step is the new stage's, and the timer runs on. That the
output is computed before the timer's step of `1 / SAMPLE_RATE` is decision D18, the start of the ramp decisions D19 and
D21, the outer minimum decision D22 (log 20). -/
def Obligations.AttackEndsWhenTheTimerReachesIt : Prop :=
  ∀ (s : State) (v : Nat) (x : Voice), s.TickRuns → s.voices[v]? = some x → x.gate = true →
    (x.envGate = true → x.envStage = .attack) →
    ∃ t y time start, exec .tick s = .next t ∧ t.voices[v]? = some y ∧
      time = (if x.envGate = true then x.envTime else s.cfg.num.ofInt 0) ∧
      start = (if x.envGate = true then x.envStart else x.envAtt) ∧
      (s.cfg.num.le s.control.attack (s.cfg.num.ofInt 0) = true ∨ s.cfg.num.le s.control.attack time = true →
        y.envStage = .decaySustain ∧
        (s.cfg.num.lt (s.cfg.num.ofInt 0) s.control.decay = true →
          y.envAtt = s.cfg.num.min (s.cfg.num.ofInt 1)
            (s.cfg.num.max
              (s.cfg.num.sub (s.cfg.num.ofInt 1)
                (s.cfg.num.div (s.cfg.num.sub time s.control.attack) s.control.decay))
              s.control.sustain)) ∧
        (s.cfg.num.lt (s.cfg.num.ofInt 0) s.control.decay = false → y.envAtt = s.control.sustain)) ∧
      (s.cfg.num.le s.control.attack (s.cfg.num.ofInt 0) = false → s.cfg.num.le s.control.attack time = false →
        y.envStage = .attack ∧
        y.envAtt = s.cfg.num.add start
          (s.cfg.num.mul (s.cfg.num.sub (s.cfg.num.ofInt 1) start) (s.cfg.num.div time s.control.attack))) ∧
      y.envTime = s.cfg.num.add time (s.cfg.num.div (s.cfg.num.ofInt 1) s.cfg.sampleRate) ∧
      y.envStart = start ∧ y.envGate = true ∧ y.envRtime = x.envRtime ∧ y.envLast = x.envLast

/-- R75, R77 (the outer minimum is decision D22; the time step, and that it follows the output, decision D18; log 20): a
held DecaySustain decays from 1 to `sustain` and stays there, while the timer runs on. -/
def Obligations.DecaySustainDecaysToSustain : Prop :=
  ∀ (s : State) (v : Nat) (x : Voice), s.TickReady → s.voices[v]? = some x → x.gate = true → x.envGate = true →
    x.envStage = .decaySustain →
    ∃ t y, exec .tick s = .next t ∧ t.voices[v]? = some y ∧ y.envStage = .decaySustain ∧
      (0 < s.control.decay →
        y.envAtt = min 1 (max (1 - (x.envTime - s.control.attack) / s.control.decay) s.control.sustain)) ∧
      (s.control.decay ≤ 0 → y.envAtt = s.control.sustain) ∧
      (0 < s.control.decay → s.control.attack + s.control.decay ≤ x.envTime → 0 ≤ s.control.sustain →
        s.control.sustain ≤ 1 → y.envAtt = s.control.sustain) ∧
      y.envTime = x.envTime + 1 / s.cfg.sampleRate ∧ y.envGate = true ∧ y.envStart = x.envStart ∧
      y.envRtime = x.envRtime ∧ y.envLast = x.envLast

/-- R76 (what counts as the last output at the edge is decision D21, that the edge's output has the timer at 0 decision
D18): the output in Release, on the sample of the
falling edge and after it: 0 when `release <= 0`, else the line
down from `lastAttenuation`, clamped; under exact arithmetic it repeats the last output on the edge and is 0 once the
release timer has reached `release`. -/
def Obligations.ReleaseFallsFromTheLastOutput : Prop :=
  ∀ (s : State) (v : Nat) (x : Voice), s.TickRuns → s.voices[v]? = some x → x.gate = false →
    (x.envGate = false → x.envStage = .release) →
    ∃ t y last rtime, exec .tick s = .next t ∧ t.voices[v]? = some y ∧
      last = (if x.envGate = true then x.envAtt else x.envLast) ∧
      rtime = (if x.envGate = true then s.cfg.num.ofInt 0 else x.envRtime) ∧
      y.envLast = last ∧
      (s.cfg.num.le s.control.release (s.cfg.num.ofInt 0) = true → y.envAtt = s.cfg.num.ofInt 0) ∧
      (s.cfg.num.le s.control.release (s.cfg.num.ofInt 0) = false →
        y.envAtt = s.cfg.num.clamp
          (s.cfg.num.mul last (s.cfg.num.sub (s.cfg.num.ofInt 1) (s.cfg.num.div rtime s.control.release)))
          (s.cfg.num.ofInt 0) last) ∧
      (s.cfg.num = .exact → 0 < s.control.release → 0 ≤ last →
        (x.envGate = true → y.envAtt = x.envAtt) ∧ (s.control.release ≤ rtime → y.envAtt = 0))

/-- R77 (decisions D18, D21): the release timer advances after the output, and the stage returns to Idle exactly when
the output is 0. -/
def Obligations.ReleaseReturnsToIdleAtZero : Prop :=
  ∀ (s : State) (v : Nat) (x : Voice), s.TickRuns → s.voices[v]? = some x → x.gate = false →
    (x.envGate = false → x.envStage = .release) →
    ∃ t y, exec .tick s = .next t ∧ t.voices[v]? = some y ∧ y.envGate = false ∧
      y.envRtime = s.cfg.num.add (if x.envGate = true then s.cfg.num.ofInt 0 else x.envRtime)
        (s.cfg.num.div (s.cfg.num.ofInt 1) s.cfg.sampleRate) ∧
      (s.cfg.num.eq y.envAtt (s.cfg.num.ofInt 0) = true → y.envStage = .idle) ∧
      (s.cfg.num.eq y.envAtt (s.cfg.num.ofInt 0) = false → y.envStage = .release) ∧
      y.envTime = x.envTime ∧ y.envStart = x.envStart

/-- R79 (the ramp of a retriggered Attack is decision D19, the last output at an edge decision D21): with the controls
held, successive outputs do not fall during Attack, and do not rise during Release, where they never exceed the value at
the release instant. -/
def Obligations.EnvelopeIsMonotoneInAttackAndRelease : Prop :=
  ∀ s : State, s.TickReady →
    ∃ t u, exec .tick s = .next t ∧ exec .tick t = .next u ∧
      ∀ (v : Nat) (x y z : Voice), s.voices[v]? = some x → t.voices[v]? = some y → u.voices[v]? = some z →
        (InUnit y.envStart → y.envStage = .attack → z.envStage = .attack → y.envAtt ≤ z.envAtt) ∧
        (0 ≤ y.envLast → y.envStage = .release → x.gate = false →
          z.envAtt ≤ y.envAtt ∧ y.envAtt ≤ y.envLast ∧ z.envLast = y.envLast)

/-- R78: events between two TICKs reach the envelope only through the final gate: after any notes that leave a voice's
gate as it was, the next TICK gives that voice the envelope it would have had without them. -/
def Obligations.EnvelopeSeesNotesThroughTheGateOnly : Prop :=
  ∀ (notes : List Instr) (s u : State) (v : Nat) (x x' : Voice), s.TickReady →
    (∀ i ∈ notes, (∃ chan p, i = .noteOff chan p) ∨ ∃ chan p vel, i = .noteOn chan p vel) →
    execAll notes s = .next u → s.voices[v]? = some x → u.voices[v]? = some x' → x'.gate = x.gate →
    ∃ t t' y y', exec .tick s = .next t ∧ exec .tick u = .next t' ∧ t.voices[v]? = some y ∧ t'.voices[v]? = some y' ∧
      y'.envStage = y.envStage ∧ y'.envTime = y.envTime ∧ y'.envRtime = y.envRtime ∧ y'.envLast = y.envLast ∧
      y'.envAtt = y.envAtt ∧ y'.envStart = y.envStart ∧ y'.envGate = y.envGate

/-! ### Filter (42_filter.md) -/

/-- R80: the six steps in order, each stage reading the new value of the stage before it, on the oscillator's sample;
the last stage, scaled by the envelope, is the voice's contribution. -/
def Obligations.FilterRunsTheSixSteps : Prop :=
  ∀ (s : State) (v : Nat) (x : Voice), s.TickRuns → s.cfg.filterEn = true → s.voices[v]? = some x →
    ∃ t y signal feedback bandpass, exec .tick s = .next t ∧ t.voices[v]? = some y ∧
      signal = (oscStep s.cfg s.control x).2 ∧
      feedback = s.cfg.num.add s.control.resonance
        (s.cfg.num.div s.control.resonance (s.cfg.num.sub (s.cfg.num.ofInt 1) s.control.cutoff)) ∧
      bandpass = s.cfg.num.sub x.fltS0 x.fltS1 ∧
      y.fltS0 = s.cfg.num.add x.fltS0 (s.cfg.num.mul s.control.cutoff
        (s.cfg.num.add (s.cfg.num.sub signal x.fltS0) (s.cfg.num.mul feedback bandpass))) ∧
      y.fltS1 = s.cfg.num.add x.fltS1 (s.cfg.num.mul s.control.cutoff (s.cfg.num.sub y.fltS0 x.fltS1)) ∧
      y.fltS2 = s.cfg.num.add x.fltS2 (s.cfg.num.mul s.control.cutoff (s.cfg.num.sub y.fltS1 x.fltS2)) ∧
      y.fltS3 = s.cfg.num.add x.fltS3 (s.cfg.num.mul s.control.cutoff (s.cfg.num.sub y.fltS2 x.fltS3)) ∧
      (voiceStep s.cfg s.control x).2 = s.cfg.num.mul y.fltS3 y.envAtt

/-- R84: without a filter the stages stay and the oscillator's sample goes to the envelope unchanged. -/
def Obligations.FilterOffPassesTheSampleThrough : Prop :=
  ∀ (s : State) (v : Nat) (x : Voice), s.TickRuns → s.cfg.filterEn = false → s.voices[v]? = some x →
    ∃ t y, exec .tick s = .next t ∧ t.voices[v]? = some y ∧ y.fltS0 = x.fltS0 ∧ y.fltS1 = x.fltS1 ∧
      y.fltS2 = x.fltS2 ∧ y.fltS3 = x.fltS3 ∧
      (voiceStep s.cfg s.control x).2 = s.cfg.num.mul (oscStep s.cfg s.control x).2 y.envAtt

/-- R83: at zero resonance no stage leaves a bound that holds for the input and the stages before. -/
def Obligations.FilterIsPassiveAtZeroResonance : Prop :=
  ∀ (c : Cfg) (k : Control) (x : Voice) (signal M : NumVal), c.num = .exact → 0 < k.cutoff → k.cutoff < 1 →
    k.resonance = 0 → |signal| ≤ M → |x.fltS0| ≤ M → |x.fltS1| ≤ M → |x.fltS2| ≤ M → |x.fltS3| ≤ M →
    |(fltProc c k x signal).1.fltS0| ≤ M ∧ |(fltProc c k x signal).1.fltS1| ≤ M ∧
    |(fltProc c k x signal).1.fltS2| ≤ M ∧ |(fltProc c k x signal).1.fltS3| ≤ M ∧ |(fltProc c k x signal).2| ≤ M

/-! ### Chorus (44_chorus.md) -/

/-- R111 (what a bypassed call leaves alone is decision D23): at `chorusmix <= CH_BYPASS` the chorus returns its input;
the input is written at the cursor, and neither the cursor nor an LFO moves. -/
def Obligations.BypassedChorusReturnsItsInput : Prop :=
  ∀ s : State, s.TickRuns → Mem.wf s.chorus.buf → s.cfg.num.le s.control.chorusmix s.cfg.chBypass = true →
    ∃ t, exec .tick s = .next t ∧ t.chorus.wc = s.chorus.wc ∧ t.chorus.lfoPhase = s.chorus.lfoPhase ∧
      t.chorus.buf.read s.chorus.wc = tickSum s ∧
      (∀ i, i ≠ s.chorus.wc → t.chorus.buf.read i = s.chorus.buf.read i) ∧
      t.delay = (dlyStep s.cfg s.delay (tickSum s)).1 ∧
      t.outputs = s.outputs ++ [s.cfg.num.mul (dlyStep s.cfg s.delay (tickSum s)).2 s.cfg.headroom]

/-- R110, R113 (multipliers and law are decisions D7, D25, interpolation, the LFO's table and the threshold D16, D17,
D23): above the threshold every LFO advances at its own rate, the
taps are read behind the cursor after the write, their mean is the wet signal, the cursor advances, and the output is
the crossfade of dry and wet. -/
def Obligations.ActiveChorusCrossfadesTheMeanOfItsTaps : Prop :=
  ∀ s : State, s.TickReady → s.Shape → s.cfg.chBypass < s.control.chorusmix →
    ∃ (t : State) (y : NumVal) (tap : NumVal → NumVal), exec .tick s = .next t ∧
      t.chorus.wc = (s.chorus.wc + 1) % s.cfg.chLen ∧
      t.chorus.lfoPhase.length = s.cfg.chN ∧
      (∀ (j m : Nat) (p : NumVal), s.cfg.chMult[j]? = some m → s.chorus.lfoPhase[j]? = some p →
        t.chorus.lfoPhase[j]? = some (phaseAdvance s.cfg p ((m : Rat) * s.cfg.chRate))) ∧
      t.chorus.buf.read s.chorus.wc = tickSum s ∧
      (∀ i, i ≠ s.chorus.wc → t.chorus.buf.read i = s.chorus.buf.read i) ∧
      (∀ (off : NumVal) (a b : NumVal),
        a = t.chorus.buf.read (((s.chorus.wc : Int) - ⌊off⌋) % (s.cfg.chLen : Int)).toNat →
        b = t.chorus.buf.read (((s.chorus.wc : Int) - ⌊off⌋ - 1) % (s.cfg.chLen : Int)).toNat →
        tap off = a + (off - (⌊off⌋ : Rat)) * (b - a)) ∧
      y = tickSum s * (1 - s.control.chorusmix) +
        (t.chorus.lfoPhase.map (fun p => tap (s.cfg.chBase + lfoValue s.cfg p * s.cfg.chDepth))).sum /
          (s.cfg.chN : Rat) * s.control.chorusmix ∧
      t.delay = (dlyStep s.cfg s.delay y).1 ∧
      t.outputs = s.outputs ++ [(dlyStep s.cfg s.delay y).2 * s.cfg.headroom]

/-- R64, R112: the LFO's value is the interpolated read (the form is decision D16) of `WT[0][0]`, the sine of band 0
(that this is the LFO's table is decision D17; log 20); it is in `[-1, 1]`, so a read offset is positive and both its
taps are inside the ring. -/
def Obligations.TapOffsetsStayInsideTheRing : Prop :=
  ∀ (c : Cfg) (phase : NumVal), c.num = .exact → c.legal = true → InTable c phase →
    (∃ (band : List (List NumVal)) (sine : List NumVal) (a b : NumVal),
      c.wt[0]? = some band ∧ band[0]? = some sine ∧ sine[⌊phase⌋.toNat]? = some a ∧
      sine[(⌊phase⌋.toNat + 1) % c.tableSize]? = some b ∧ lfoValue c phase = tableRead c sine phase ∧
      lfoValue c phase = a + (phase - (⌊phase⌋ : Rat)) * (b - a)) ∧
    -1 ≤ lfoValue c phase ∧ lfoValue c phase ≤ 1 ∧ 0 < tapOffset c phase ∧ 0 ≤ ⌊tapOffset c phase⌋ ∧
    ⌊tapOffset c phase⌋ + 1 < (c.chLen : Int)

/-! ### Delay (45_delay.md) -/

/-- R120: DLY.STEP on the chorus output: bypassed at `DL_OFFSET = 0`; else push at the tail, then pop from the head when
more than `DL_OFFSET` elements are held, else a tap of 0; and the mix of dry and wet. That nothing is pushed at
`DL_OFFSET = 0` is decision D32 (R122), and the ring with its head modulo `DL_CAP` is decision D8 (R42, R123; log 20).
-/
def Obligations.DelayPushesThenPops : Prop :=
  ∀ s : State, s.TickRuns → Mem.wf s.delay.buf →
    ∃ t x tap z, exec .tick s = .next t ∧ x = (tickChorus s).2 ∧
      t.outputs = s.outputs ++ [s.cfg.num.mul z s.cfg.headroom] ∧
      (s.cfg.dlOffset = 0 → t.delay = s.delay ∧ z = x) ∧
      (s.cfg.dlOffset ≠ 0 →
        t.delay.buf.read ((s.delay.head + s.delay.len) % s.cfg.dlCap) = x ∧
        (∀ i, i ≠ (s.delay.head + s.delay.len) % s.cfg.dlCap → t.delay.buf.read i = s.delay.buf.read i) ∧
        (s.cfg.dlOffset < s.delay.len + 1 → tap = t.delay.buf.read s.delay.head ∧
          t.delay.head = (s.delay.head + 1) % s.cfg.dlCap ∧ t.delay.len = s.delay.len) ∧
        (s.delay.len + 1 ≤ s.cfg.dlOffset → tap = s.cfg.num.ofInt 0 ∧ t.delay.head = s.delay.head ∧
          t.delay.len = s.delay.len + 1) ∧
        z = s.cfg.num.add (s.cfg.num.mul s.cfg.dlDry x) (s.cfg.num.mul s.cfg.dlWet tap))

/-- R42 (the ring is decision D8): on the ring, a call of DLY.STEP is the FIFO's: the contents with the input behind
them, less the oldest element when more than `DL_OFFSET` are held, which is then the wet tap. -/
def Obligations.DelayRingIsAFifo : Prop :=
  ∀ (c : Cfg) (d : Delay) (x : NumVal), 0 < c.dlOffset → c.dlOffset + 1 ≤ c.dlCap → d.head < c.dlCap →
    d.len ≤ c.dlOffset → Mem.wf d.buf →
    (d.len = c.dlOffset → ∃ tap rest, delayContents c d ++ [x] = tap :: rest ∧
      delayContents c (dlyStep c d x).1 = rest ∧
      (dlyStep c d x).2 = c.num.add (c.num.mul c.dlDry x) (c.num.mul c.dlWet tap)) ∧
    (d.len < c.dlOffset → delayContents c (dlyStep c d x).1 = delayContents c d ++ [x] ∧
      (dlyStep c d x).2 = c.num.add (c.num.mul c.dlDry x) (c.num.mul c.dlWet (c.num.ofInt 0)))

/-- R121: from the reset delay with `DL_OFFSET = N > 0`, the first `N` outputs are `dry * input`, and output `n >= N`
has the input of call `n - N` as its wet tap. -/
def Obligations.DelayedOutputIsTheShiftedInput : Prop :=
  ∀ (c : Cfg) (xs : List NumVal) (n : Nat) (x : NumVal), c.num = .exact → 0 < c.dlOffset → c.dlOffset + 1 ≤ c.dlCap →
    xs[n]? = some x →
    (n < c.dlOffset → (delayOutputs c Delay.reset xs)[n]? = some (c.dlDry * x)) ∧
    ∀ m w, n = m + c.dlOffset → xs[m]? = some w →
      (delayOutputs c Delay.reset xs)[n]? = some (c.dlDry * x + c.dlWet * w)

/-! ### Invariants -/

/-- R29, R161, R162 (reset values: decisions D11 to D13, logs 9 to 11): after construction with a legal `CFG` and RESET
the invariant holds and the block is silent. -/
def Obligations.ResetMeetsTheInvariantAndIsSilent : Prop :=
  ∀ c : Cfg, c.num = .exact → c.legal = true → (State.resetWith c).Inv ∧ (State.resetWith c).Silent

/-- R162: under exact arithmetic every transaction preserves the ranges of 10_state.md: phases (decision D14), indices
(D8), envelopes (D19, D21, D22), controls (D12, D27), and the canonical form of the rings (log 16). -/
def Obligations.StepKeepsTheInvariant : Prop :=
  ∀ s t : State, s.Inv → step s = .next t → t.Inv

/-- R15, R16, R25, R26, R42 (the delay's ring is decision D8, the canonical form log 16): under every instance of `NUM`
every transaction preserves the sizes of the register lists, the ranges of the ring cursors and of the delay's fill, and
the canonical form of the rings. -/
def Obligations.StepKeepsTheShape : Prop :=
  ∀ s t : State, s.Shape → step s = .next t → t.Shape

/-- R13, R140 (the list of pending transactions is log 7's; no phase leaves the table by decision D14): from a state
that meets the invariant, whatever the host has issued is executed to the end, with no refusal. -/
def Obligations.EveryIssuedTransactionCompletes : Prop :=
  ∀ s : State, s.Inv → ∃ t, core.run s.pending.length s = .next t ∧ t.Inv ∧ t.pending = []
end

