-- ==== Sys2Proof/Laws/Num.lean ====
section
/-! SUPPORT. The reference instance of `NUM` is rational arithmetic (spec 00_scope.md R8): each operation rewritten to
Mathlib's. -/

namespace Sys2Proof

@[simp] theorem exact_add (a b : NumVal) : NumSys.exact.add a b = a + b := rfl
@[simp] theorem exact_sub (a b : NumVal) : NumSys.exact.sub a b = a - b := rfl
@[simp] theorem exact_mul (a b : NumVal) : NumSys.exact.mul a b = a * b := rfl
@[simp] theorem exact_lt (a b : NumVal) : NumSys.exact.lt a b = decide (a < b) := rfl
@[simp] theorem exact_le (a b : NumVal) : NumSys.exact.le a b = decide (a ≤ b) := rfl
@[simp] theorem exact_eq (a b : NumVal) : NumSys.exact.eq a b = decide (a = b) := rfl
@[simp] theorem exact_ofInt (n : Int) : NumSys.exact.ofInt n = (n : Rat) := rfl
@[simp] theorem exact_ofRat (q : Rat) : NumSys.exact.ofRat q = q := rfl
@[simp] theorem exact_floor (a : NumVal) : NumSys.exact.floor a = ⌊a⌋ := rfl

theorem exact_div {b : NumVal} (a : NumVal) (hb : b ≠ 0) : NumSys.exact.div a b = a / b := by
  simp [NumSys.div, hb]

@[simp] theorem exact_max (a b : NumVal) : NumSys.exact.max a b = max a b := by
  simp only [NumSys.max, max_def]

@[simp] theorem exact_min (a b : NumVal) : NumSys.exact.min a b = min a b := by
  simp only [NumSys.min, min_def]

@[simp] theorem exact_abs (a : NumVal) : NumSys.exact.abs a = |a| := by
  by_cases h : a < 0
  · simp [NumSys.abs, h, abs_of_neg h]
  · simp [NumSys.abs, h, abs_of_nonneg (not_lt.mp h)]

@[simp] theorem exact_clamp (x lo hi : NumVal) : NumSys.exact.clamp x lo hi = min (max x lo) hi := by
  simp [NumSys.clamp]

theorem foldl_exact_add (xs : List NumVal) (a : NumVal) :
    xs.foldl (fun acc x => NumSys.exact.add acc x) a = a + xs.sum := by
  induction xs generalizing a with
  | nil => simp
  | cons x xs ih => rw [List.foldl_cons, ih, List.sum_cons, exact_add, add_assoc]

@[simp] theorem exact_sum (xs : List NumVal) : NumSys.exact.sum xs = xs.sum := by
  rw [NumSys.sum, foldl_exact_add, exact_ofInt, Int.cast_zero, zero_add]

/-- The carrier's 0 is `ofInt 0` under every instance. -/
@[simp] theorem ofInt_zero (N : NumSys) : N.ofInt 0 = 0 := by
  cases N <;> simp [NumSys.ofInt]

end Sys2Proof
end

