-- ==== Sys2Proof/Laws/Config.lean ====
section
/-! SUPPORT. What a legal configuration gives (spec 00_scope.md R6, R7). -/

namespace Sys2Proof

/-- The integer facts of a legal configuration, under every instance of `NUM`. -/
structure Cfg.Sizes (c : Cfg) : Prop where
  nvoices   : 1 ≤ c.nvoices
  nwaves    : 2 ≤ c.nwaves
  nbands    : 1 ≤ c.nbands
  tableSize : 1 ≤ c.tableSize
  thresh    : c.bandThresh.length + 1 = c.nbands
  wt        : c.wt.length = c.nbands
  bands     : ∀ band ∈ c.wt, band.length = c.nwaves ∧ ∀ t ∈ band, t.length = c.tableSize
  pitchFreq : c.pitchFreq.length = 128
  ccTime    : c.ccTime.length = 128
  chN       : 1 ≤ c.chN
  chLen     : 3 ≤ c.chLen
  chMult    : c.chMult.length = c.chN
  chMultPos : ∀ m ∈ c.chMult, 1 ≤ m
  dlCap     : c.dlOffset + 1 ≤ c.dlCap
  codes     : c.codes.distinct = true

/-- The order facts of a legal configuration under the reference `NUM`. -/
structure Cfg.Ranges (c : Cfg) : Prop where
  sampleRate : 0 < c.sampleRate
  thresh     : ∀ t ∈ c.bandThresh, 0 < t
  lfoTable   : ∀ x ∈ c.lfoTable, -1 ≤ x ∧ x ≤ 1
  pitchFreq  : ∀ f ∈ c.pitchFreq, 0 ≤ f
  ccTime     : ∀ t ∈ c.ccTime, 0 ≤ t
  ccTime0    : c.ccTime.getD 0 Config.absentElement = 0
  chDepth    : 0 ≤ c.chDepth
  chRate     : 0 ≤ c.chRate
  chBypass   : 0 ≤ c.chBypass
  chLow      : 0 < c.chBase - c.chDepth
  chHigh     : c.chBase + c.chDepth + 1 < (c.chLen : Rat)

theorem Cfg.sizes_of_legal {c : Cfg} (h : c.legal = true) : c.Sizes := by
  simp only [Cfg.legal, Cfg.sizesLegal, Cfg.bandsLegal, Cfg.wavesLegal, Cfg.romsLegal, Cfg.chorusLegal, Cfg.delayLegal,
    Bool.and_eq_true, decide_eq_true_eq, List.all_eq_true] at h
  obtain ⟨⟨⟨⟨⟨⟨h1, h2⟩, h3⟩, h4⟩, h5⟩, h6⟩, h7⟩ := h
  exact {
    nvoices := h1.1.1.1.2, nwaves := h1.1.1.2, nbands := h1.1.2, tableSize := h1.2, thresh := h2.1.1, wt := h3.1.1,
    bands := h3.1.2, pitchFreq := h4.1.1.1.1, ccTime := h4.1.1.2, chN := h5.1.1.1.1.1.1.1.1,
    chLen := h5.1.1.1.1.1.1.1.2, chMult := h5.1.1.1.1.2, chMultPos := h5.1.1.1.2, dlCap := h6, codes := h7 }

theorem Cfg.ranges_of_legal {c : Cfg} (hx : c.num = .exact) (h : c.legal = true) : c.Ranges := by
  simp only [Cfg.legal, Cfg.sizesLegal, Cfg.bandsLegal, Cfg.wavesLegal, Cfg.romsLegal, Cfg.chorusLegal, hx,
    Bool.and_eq_true, decide_eq_true_eq, List.all_eq_true, exact_lt, exact_le, exact_eq,
    exact_ofInt, exact_add, exact_sub, Int.cast_zero, Int.cast_one, Int.cast_neg,
    Int.cast_natCast] at h
  obtain ⟨⟨⟨⟨⟨⟨h1, h2⟩, h3⟩, h4⟩, h5⟩, h6⟩, h7⟩ := h
  exact {
    sampleRate := h1.1.1.1.1, thresh := h2.2, lfoTable := h3.2, pitchFreq := h4.1.1.1.2, ccTime := h4.1.2,
    ccTime0 := h4.2, chDepth := h5.1.1.1.1.1.1.2, chRate := h5.1.1.1.1.1.2, chBypass := h5.1.1.2, chLow := h5.1.2,
    chHigh := h5.2 }

/-- Ascending thresholds are pairwise ordered. -/
theorem Cfg.ascending_pairwise {xs : List NumVal} (h : Cfg.ascending .exact xs = true) : xs.Pairwise (· < ·) := by
  rw [← List.isChain_iff_pairwise]
  induction xs with
  | nil => exact .nil
  | cons a xs ih =>
    cases xs with
    | nil => exact .singleton a
    | cons b xs =>
      simp only [Cfg.ascending, exact_lt, Bool.and_eq_true, decide_eq_true_eq] at h
      exact .cons_cons h.1 (ih h.2)

theorem Cfg.thresh_pairwise {c : Cfg} (hx : c.num = .exact) (h : c.legal = true) : c.bandThresh.Pairwise (· < ·) := by
  simp only [Cfg.legal, Cfg.bandsLegal, Bool.and_eq_true] at h
  exact Cfg.ascending_pairwise (hx ▸ h.1.1.1.1.1.2.1.2)

end Sys2Proof
end

