-- ==== Sys2Proof/Laws/Mem.lean ====
section
/-! SUPPORT. The rings (spec 20_memory.md R35, R37, R43): a read after a write, every other element unchanged, and the
canonical form that every memory operation keeps. -/

namespace Sys2Proof.Machine

@[simp] theorem Mem.read_nil (i : Nat) : Mem.read [] i = 0 := rfl

theorem Mem.read_erase_ne {m : Mem} {i j : Nat} (h : j ≠ i) : (Mem.erase m i).read j = m.read j := by
  induction m with
  | nil => rfl
  | cons e m ih =>
    obtain ⟨k, y⟩ := e
    by_cases hk : i = k
    · subst hk; simp [Mem.erase, Mem.read, h]
    · by_cases hj : j = k <;> simp [Mem.erase, Mem.read, hk, hj, ih]

theorem Mem.read_insert_same (m : Mem) (i : Nat) (x : NumVal) : (Mem.insert m i x).read i = x := by
  induction m with
  | nil => simp [Mem.insert, Mem.read]
  | cons e m ih =>
    obtain ⟨k, y⟩ := e
    by_cases hlt : i < k
    · simp [Mem.insert, Mem.read, hlt]
    · by_cases hk : i = k <;> simp [Mem.insert, Mem.read, hlt, hk, ih]

theorem Mem.read_insert_ne {m : Mem} {i j : Nat} (x : NumVal) (h : j ≠ i) : (Mem.insert m i x).read j = m.read j := by
  induction m with
  | nil => simp [Mem.insert, Mem.read, h]
  | cons e m ih =>
    obtain ⟨k, y⟩ := e
    by_cases hlt : i < k
    · simp [Mem.insert, Mem.read, hlt, h]
    · by_cases hk : i = k
      · subst hk; simp [Mem.insert, Mem.read, h]
      · by_cases hj : j = k <;> simp [Mem.insert, Mem.read, hlt, hk, hj, ih]

/-- In canonical form an index below every listed one reads as the reset content. -/
theorem Mem.read_below {m : Mem} {i : Nat} (h : ∀ e ∈ m, i < e.1) : m.read i = 0 := by
  induction m with
  | nil => rfl
  | cons e m ih =>
    obtain ⟨k, y⟩ := e
    have hk : i ≠ k := (h (k, y) (by simp)).ne
    simp [Mem.read, hk, ih fun e he => h e (List.mem_cons_of_mem _ he)]

theorem Mem.read_erase_same {m : Mem} (hw : Mem.wf m) (i : Nat) : (Mem.erase m i).read i = 0 := by
  induction m with
  | nil => rfl
  | cons e m ih =>
    obtain ⟨k, y⟩ := e
    obtain ⟨hp, hz⟩ := hw
    obtain ⟨hhd, htl⟩ := List.pairwise_cons.mp hp
    by_cases hk : i = k
    · subst hk; simpa [Mem.erase] using Mem.read_below hhd
    · simp [Mem.erase, Mem.read, hk, ih ⟨htl, fun e he => hz e (List.mem_cons_of_mem _ he)⟩]

/-- A read after a write to the same element gives the value written. -/
theorem Mem.read_write_same {m : Mem} (hw : Mem.wf m) (i : Nat) (x : NumVal) : (m.write i x).read i = x := by
  by_cases hx : x = Mem.blank
  · rw [Mem.write, if_pos hx, Mem.read_erase_same hw i, hx, Mem.blank]
  · simp [Mem.write, hx, Mem.read_insert_same]

/-- A write leaves every other element alone. -/
theorem Mem.read_write_ne {m : Mem} {i j : Nat} (x : NumVal) (h : j ≠ i) : (m.write i x).read j = m.read j := by
  by_cases hx : x = Mem.blank
  · simp [Mem.write, hx, Mem.read_erase_ne h]
  · simp [Mem.write, hx, Mem.read_insert_ne x h]

theorem Mem.mem_erase {m : Mem} {i : Nat} {e : Nat × NumVal} (h : e ∈ Mem.erase m i) : e ∈ m := by
  induction m with
  | nil => simp [Mem.erase] at h
  | cons a m ih =>
    obtain ⟨k, y⟩ := a
    by_cases hk : i = k
    · simp only [Mem.erase, hk, if_true] at h; exact List.mem_cons_of_mem _ h
    · simp only [Mem.erase, hk, if_false, List.mem_cons] at h
      exact h.elim (fun h => by simp [h]) fun h => List.mem_cons_of_mem _ (ih h)

theorem Mem.mem_insert {m : Mem} {i : Nat} {x : NumVal} {e : Nat × NumVal} (h : e ∈ Mem.insert m i x) :
    e = (i, x) ∨ e ∈ m := by
  induction m with
  | nil => simpa [Mem.insert] using h
  | cons a m ih =>
    obtain ⟨k, y⟩ := a
    by_cases hlt : i < k
    · simpa [Mem.insert, hlt] using h
    · by_cases hk : i = k
      · simp only [Mem.insert, hk, lt_irrefl, if_false, if_true, List.mem_cons] at h ⊢
        exact h.imp (fun h => by simpa using h) .inr
      · simp only [Mem.insert, hlt, hk, if_false, List.mem_cons] at h ⊢
        rcases h with h | h
        · exact .inr (.inl h)
        · exact (ih h).imp_right .inr

theorem Mem.mem_write {m : Mem} {i : Nat} {x : NumVal} {e : Nat × NumVal} (h : e ∈ m.write i x) : e.1 = i ∨ e ∈ m := by
  by_cases hx : x = Mem.blank
  · exact .inr (Mem.mem_erase (by simpa [Mem.write, hx] using h))
  · exact (Mem.mem_insert (by simpa [Mem.write, hx] using h)).imp_left fun he => by rw [he]

theorem Mem.erase_pairwise {m : Mem} (i : Nat) (h : m.Pairwise (fun a b => a.1 < b.1)) :
    (Mem.erase m i).Pairwise (fun a b => a.1 < b.1) := by
  induction m with
  | nil => exact .nil
  | cons a m ih =>
    obtain ⟨k, y⟩ := a
    obtain ⟨hhd, htl⟩ := List.pairwise_cons.mp h
    by_cases hk : i = k
    · simpa [Mem.erase, hk] using htl
    · simpa [Mem.erase, hk] using ⟨fun a b hab => hhd (a, b) (Mem.mem_erase hab), ih htl⟩

theorem Mem.insert_pairwise {m : Mem} (i : Nat) (x : NumVal) (h : m.Pairwise (fun a b => a.1 < b.1)) :
    (Mem.insert m i x).Pairwise (fun a b => a.1 < b.1) := by
  induction m with
  | nil => simp [Mem.insert]
  | cons a m ih =>
    obtain ⟨k, y⟩ := a
    obtain ⟨hhd, htl⟩ := List.pairwise_cons.mp h
    by_cases hlt : i < k
    · rw [Mem.insert, if_pos hlt]
      refine List.pairwise_cons.mpr ⟨fun e he => ?_, h⟩
      rcases List.mem_cons.mp he with rfl | he
      · exact hlt
      · exact hlt.trans (hhd e he)
    · by_cases hk : i = k
      · subst hk; rw [Mem.insert, if_neg hlt, if_pos rfl]; exact List.pairwise_cons.mpr ⟨hhd, htl⟩
      · rw [Mem.insert, if_neg hlt, if_neg hk]
        refine List.pairwise_cons.mpr ⟨fun e he => ?_, ih htl⟩
        rcases Mem.mem_insert he with rfl | he
        · show k < i; omega
        · exact hhd e he

/-- Every write keeps the canonical form. -/
theorem Mem.write_wf {m : Mem} (hw : Mem.wf m) (i : Nat) (x : NumVal) : Mem.wf (m.write i x) := by
  by_cases hx : x = Mem.blank
  · rw [Mem.write, if_pos hx]
    exact ⟨Mem.erase_pairwise i hw.1, fun e he => hw.2 e (Mem.mem_erase he)⟩
  · rw [Mem.write, if_neg hx]
    refine ⟨Mem.insert_pairwise i x hw.1, fun e he => ?_⟩
    rcases Mem.mem_insert he with rfl | he
    · exact hx
    · exact hw.2 e he

/-- A write inside the ring keeps the ring. -/
theorem Mem.Within_write {m : Mem} {len i : Nat} (h : Mem.Within m len) (hi : i < len) (x : NumVal) :
    Mem.Within (m.write i x) len :=
  ⟨Mem.write_wf h.1 i x, fun e he => (Mem.mem_write he).elim (· ▸ hi) (h.2 e)⟩

theorem Mem.Within_nil (len : Nat) : Mem.Within [] len :=
  ⟨⟨.nil, fun _ h => nomatch h⟩, fun _ h => nomatch h⟩

/-- Writing the reset content to an untouched ring leaves it untouched. -/
@[simp] theorem Mem.write_nil_zero (i : Nat) : Mem.write [] i 0 = [] := rfl

/-- A ring index is inside the ring (R39). -/
theorem ringIndex_lt (n : Int) {len : Nat} (h : 0 < len) : ringIndex n len < len := by
  unfold ringIndex
  have h1 := Int.emod_nonneg n (b := (len : Int)) (by omega)
  have h2 := Int.emod_lt_of_pos n (b := (len : Int)) (by omega)
  omega

/-- Reading a ROM element that exists. -/
theorem romRead_eq {rom : List NumVal} {i : Nat} {x : NumVal} (h : rom[i]? = some x) : romRead rom i = x := by
  simp [romRead, List.getD, h]

theorem romRead_mem {rom : List NumVal} {i : Nat} (h : i < rom.length) : romRead rom i ∈ rom := by
  simp [romRead, List.getD, h]

end Sys2Proof.Machine
end

