-- ==== Sys2Proof/Laws/Oscillator.lean ====
section
/-! SUPPORT. Phase accumulator, table read, band selection, oscillator and LFO under the reference `NUM` (spec
40_oscillator.md). -/

namespace Sys2Proof.Machine

variable {c : Cfg}

/-- `p` modulo the table size, as R60 writes it, is in the table. -/
theorem modTable_inTable (hs : 1 ≤ c.tableSize) (p : Rat) :
    InTable c (p - (c.tableSize : Rat) * (⌊p / (c.tableSize : Rat)⌋ : Rat)) := by
  have hT : (0 : Rat) < c.tableSize := by exact_mod_cast hs
  have h1 : (⌊p / (c.tableSize : Rat)⌋ : Rat) ≤ p / c.tableSize := Int.floor_le _
  have h2 : p / c.tableSize < (⌊p / (c.tableSize : Rat)⌋ : Rat) + 1 := Int.lt_floor_add_one _
  rw [le_div_iff₀ hT] at h1
  rw [div_lt_iff₀ hT] at h2
  constructor <;> nlinarith

/-- PHASE.ADVANCE in rational arithmetic (R60). -/
theorem phaseAdvance_exact (hx : c.num = .exact) (hs : 1 ≤ c.tableSize) (hr : 0 < c.sampleRate) (phase f : NumVal) :
    phaseAdvance c phase f =
      (phase + (c.tableSize : Rat) * f / c.sampleRate) -
        (c.tableSize : Rat) * (⌊(phase + (c.tableSize : Rat) * f / c.sampleRate) / (c.tableSize : Rat)⌋ : Rat) := by
  have hT : (c.tableSize : Rat) ≠ 0 := by
    have : (0 : Rat) < c.tableSize := by exact_mod_cast hs
    exact this.ne'
  simp only [phaseAdvance, hx, exact_sub, exact_add, exact_mul, exact_ofInt, exact_floor, exact_div _ hr.ne',
    Int.cast_natCast, exact_div _ hT]

/-- One advance ends in the table, from any phase and at any frequency (R65). -/
theorem phaseAdvance_inTable (hx : c.num = .exact) (hl : c.legal = true) (phase f : NumVal) :
    InTable c (phaseAdvance c phase f) := by
  rw [phaseAdvance_exact hx (Cfg.sizes_of_legal hl).tableSize (Cfg.ranges_of_legal hx hl).sampleRate]
  exact modTable_inTable (Cfg.sizes_of_legal hl).tableSize _

/-- A value in the table is its own residue. -/
theorem modTable_of_inTable {p : Rat} (h : InTable c p) :
    p - (c.tableSize : Rat) * (⌊p / (c.tableSize : Rat)⌋ : Rat) = p := by
  have hT : (0 : Rat) < c.tableSize := h.1.trans_lt h.2
  have : ⌊p / (c.tableSize : Rat)⌋ = 0 := by
    rw [Int.floor_eq_zero_iff]
    exact ⟨div_nonneg h.1 hT.le, by rw [div_lt_one hT]; exact h.2⟩
  simp [this]

/-- `InTable` is what the range check decides under the reference `NUM` (R40). -/
theorem phaseInRange_of_inTable (hx : c.num = .exact) {p : NumVal} (h : InTable c p) : phaseInRange c p = true := by
  have h1 : (0 : Int) ≤ ⌊p⌋ := Int.floor_nonneg.mpr h.1
  have h2 : ⌊p⌋ < (c.tableSize : Int) := by rw [Int.floor_lt]; exact_mod_cast h.2
  simp [phaseInRange, hx, h.1, h.2, h1, h2]

theorem inTable_of_phaseInRange (hx : c.num = .exact) {p : NumVal} (h : phaseInRange c p = true) : InTable c p := by
  simp only [phaseInRange, hx, exact_le, exact_lt, exact_ofInt, Bool.and_eq_true, decide_eq_true_eq] at h
  exact ⟨by simpa using h.1.1.1, by simpa using h.1.1.2⟩

/-- A phase in the table has a floor that indexes the table. -/
theorem floor_toNat_lt {p : NumVal} (h : InTable c p) : ⌊p⌋.toNat < c.tableSize := by
  have h1 : (0 : Int) ≤ ⌊p⌋ := Int.floor_nonneg.mpr h.1
  have h2 : ⌊p⌋ < (c.tableSize : Int) := by rw [Int.floor_lt]; exact_mod_cast h.2
  omega

/-- TABLE.READ in rational arithmetic (R61). -/
theorem tableRead_exact (hx : c.num = .exact) (T : List NumVal) {phase : NumVal} (h : InTable c phase) :
    tableRead c T phase =
      romRead T ⌊phase⌋.toNat +
        (phase - (⌊phase⌋ : Rat)) * (romRead T ((⌊phase⌋.toNat + 1) % c.tableSize) - romRead T ⌊phase⌋.toNat) := by
  have h1 : (0 : Int) ≤ ⌊phase⌋ := Int.floor_nonneg.mpr h.1
  have h2 : ((⌊phase⌋.toNat : Int) : Rat) = (⌊phase⌋ : Rat) := by rw [Int.toNat_of_nonneg h1]
  simp only [tableRead, hx, exact_add, exact_mul, exact_sub, exact_ofInt, exact_floor, h2]

/-- Interpolating inside an interval stays in it. -/
theorem interpolate_mem {a b fr lo hi : Rat} (h0 : 0 ≤ fr) (h1 : fr ≤ 1) (ha : lo ≤ a ∧ a ≤ hi) (hb : lo ≤ b ∧ b ≤ hi) :
    lo ≤ a + fr * (b - a) ∧ a + fr * (b - a) ≤ hi := by
  constructor <;> nlinarith [mul_nonneg h0 (sub_nonneg.mpr hb.1), mul_nonneg h0 (sub_nonneg.mpr hb.2),
    mul_nonneg (sub_nonneg.mpr h1) (sub_nonneg.mpr ha.1), mul_nonneg (sub_nonneg.mpr h1) (sub_nonneg.mpr ha.2)]

theorem fract_mem (p : Rat) : 0 ≤ p - (⌊p⌋ : Rat) ∧ p - (⌊p⌋ : Rat) ≤ 1 :=
  ⟨sub_nonneg.mpr (Int.floor_le p), by linarith [Int.lt_floor_add_one p]⟩

/-- A read of a table whose samples lie in an interval lies in it. -/
theorem tableRead_mem (hx : c.num = .exact) {T : List NumVal} (hT : T.length = c.tableSize) {lo hi : Rat}
    (hr : ∀ y ∈ T, lo ≤ y ∧ y ≤ hi) {phase : NumVal} (h : InTable c phase) :
    lo ≤ tableRead c T phase ∧ tableRead c T phase ≤ hi := by
  have hi0 := floor_toNat_lt h
  have hpos : 0 < c.tableSize := by omega
  rw [tableRead_exact hx T h]
  exact interpolate_mem (fract_mem phase).1 (fract_mem phase).2 (hr _ (romRead_mem (hT ▸ hi0)))
    (hr _ (romRead_mem (by rw [hT]; exact Nat.mod_lt _ hpos)))

/-- The LFO's table has `TABLE_SIZE` samples. -/
theorem lfoTable_length (hl : c.legal = true) : c.lfoTable.length = c.tableSize := by
  have hz := Cfg.sizes_of_legal hl
  have h0 : 0 < c.wt.length := by rw [hz.wt]; exact hz.nbands
  have hb := hz.bands c.wt[0] (List.getElem_mem h0)
  have h1 : 0 < c.wt[0].length := by rw [hb.1]; have := hz.nwaves; omega
  have : c.lfoTable = c.wt[0][0] := by simp [Cfg.lfoTable, List.getD, h0, h1]
  rw [this]
  exact hb.2 _ (List.getElem_mem h1)

/-- The LFO's value is in `[-1, 1]` (R64). -/
theorem lfoValue_mem (hx : c.num = .exact) (hl : c.legal = true) {phase : NumVal} (h : InTable c phase) :
    -1 ≤ lfoValue c phase ∧ lfoValue c phase ≤ 1 :=
  tableRead_mem hx (lfoTable_length hl) (Cfg.ranges_of_legal hx hl).lfoTable h

/-- The selected band exists (R62). -/
theorem bandSelect_lt (hl : c.legal = true) (f : NumVal) : bandSelect c f < c.nbands := by
  have hz := Cfg.sizes_of_legal hl
  have : bandSelect c f ≤ c.bandThresh.length := List.countP_le_length
  have := hz.thresh
  omega

/-- On an ascending list, the count of the elements at or below `f` is above `k` exactly when element `k` is one of
them. -/
theorem lt_countP_le_iff {xs : List Rat} (h : xs.Pairwise (· < ·)) (f : Rat) (k : Nat) (t : Rat)
    (hk : xs[k]? = some t) : k < xs.countP (fun t => decide (t ≤ f)) ↔ t ≤ f := by
  induction xs generalizing k with
  | nil => simp at hk
  | cons a xs ih =>
    obtain ⟨hhd, htl⟩ := List.pairwise_cons.mp h
    by_cases ha : a ≤ f
    · rw [List.countP_cons_of_pos (by simpa using ha)]
      cases k with
      | zero => simp only [List.getElem?_cons_zero, Option.some.injEq] at hk; subst hk; simp [ha]
      | succ k => rw [Nat.succ_lt_succ_iff]; exact ih htl k (by simpa using hk)
    · have h0 : xs.countP (fun t => decide (t ≤ f)) = 0 := by
        rw [List.countP_eq_zero]
        intro b hb
        have := hhd b hb
        simp only [decide_eq_true_eq, not_le]
        exact (not_le.mp ha).trans this
      rw [List.countP_cons_of_neg (by simpa using ha), h0]
      have hta : a ≤ t := by
        cases k with
        | zero => simp only [List.getElem?_cons_zero, Option.some.injEq] at hk; exact hk.le
        | succ k => exact (hhd t (List.mem_of_getElem? (by simpa using hk))).le
      have : ¬ t ≤ f := not_le.mpr ((not_le.mp ha).trans_le hta)
      simp [this]

/-- OSC.STEP writes the phase only. -/
theorem oscStep_voice (k : Control) (v : Voice) :
    (oscStep c k v).1 = { v with oscPhase := phaseAdvance c v.oscPhase v.freq } := rfl

end Sys2Proof.Machine
end

