-- ==== Sys2Proof/Laws/Chorus.lean ====
section
/-! SUPPORT. CHO.STEP (spec 44_chorus.md): its two cases, and what it keeps. -/

namespace Sys2Proof.Machine

variable {c : Cfg} {k : Control}

theorem choStep_bypass (h : chorusBypassed c k = true) (ch : Chorus) (x : NumVal) :
    choStep c k ch x = ({ ch with buf := ch.buf.write ch.wc x }, x) := by
  simp [choStep, h]

theorem choStep_active (h : chorusBypassed c k = false) (ch : Chorus) (x : NumVal) :
    choStep c k ch x =
      ({ wc := (ch.wc + 1) % c.chLen, lfoPhase := lfoAdvanceAll c ch.lfoPhase, buf := ch.buf.write ch.wc x },
        c.num.add (c.num.mul x (c.num.sub (c.num.ofInt 1) k.chorusmix))
          (c.num.mul (c.num.div (c.num.sum ((lfoAdvanceAll c ch.lfoPhase).map
            (fun phase => tapRead c (ch.buf.write ch.wc x) ch.wc (tapOffset c phase)))) (c.num.ofInt c.chN))
            k.chorusmix)) := by
  simp [choStep, h]

/-- CHO.STEP writes the element at the cursor, bypassed or not (R111). -/
theorem choStep_buf (ch : Chorus) (x : NumVal) : (choStep c k ch x).1.buf = ch.buf.write ch.wc x := by
  cases h : chorusBypassed c k
  · rw [choStep_active h]
  · rw [choStep_bypass h]

theorem lfoAdvanceAll_length (hl : c.legal = true) {phases : List NumVal} (h : phases.length = c.chN) :
    (lfoAdvanceAll c phases).length = c.chN := by
  simp [lfoAdvanceAll, (Cfg.sizes_of_legal hl).chMult, h]

theorem lfoAdvanceAll_getElem? {phases : List NumVal} {j m : Nat} {p : NumVal} (hm : c.chMult[j]? = some m)
    (hp : phases[j]? = some p) :
    (lfoAdvanceAll c phases)[j]? = some (phaseAdvance c p (c.num.mul (c.num.ofInt m) c.chRate)) := by
  simp [lfoAdvanceAll, List.getElem?_zipWith, hm, hp]

theorem lfoAdvanceAll_inTable (hx : c.num = .exact) (hl : c.legal = true) {phases : List NumVal} :
    ∀ p ∈ lfoAdvanceAll c phases, InTable c p := by
  intro p hp
  obtain ⟨j, hj⟩ := List.mem_iff_getElem?.mp hp
  simp only [lfoAdvanceAll, List.getElem?_zipWith] at hj
  split at hj
  · simp only [Option.some.injEq] at hj
    exact hj ▸ phaseAdvance_inTable hx hl _ _
  · exact absurd hj (by simp)

/-- What a call of CHO.STEP keeps of the chorus's shape (R25, R27). -/
theorem choStep_shape (hl : c.legal = true) {ch : Chorus} (hw : ch.wc < c.chLen) (hp : ch.lfoPhase.length = c.chN)
    (hb : Mem.Within ch.buf c.chLen) (x : NumVal) :
    (choStep c k ch x).1.wc < c.chLen ∧ (choStep c k ch x).1.lfoPhase.length = c.chN ∧
      Mem.Within (choStep c k ch x).1.buf c.chLen := by
  have hpos : 0 < c.chLen := by omega
  have hbuf := Mem.Within_write hb hw x
  cases h : chorusBypassed c k
  · rw [choStep_active h]
    exact ⟨Nat.mod_lt _ hpos, lfoAdvanceAll_length hl hp, hbuf⟩
  · rw [choStep_bypass h]
    exact ⟨hw, hp, hbuf⟩

/-- The read offset of a phase in the table (R112). -/
theorem tapOffset_mem (hx : c.num = .exact) (hl : c.legal = true) {phase : NumVal} (h : InTable c phase) :
    c.chBase - c.chDepth ≤ tapOffset c phase ∧ tapOffset c phase ≤ c.chBase + c.chDepth := by
  have hd := (Cfg.ranges_of_legal hx hl).chDepth
  have hv := lfoValue_mem hx hl h
  simp only [tapOffset, hx, exact_add, exact_mul]
  constructor <;> nlinarith [mul_nonneg (by linarith [hv.1] : 0 ≤ lfoValue c phase + 1) hd,
    mul_nonneg (by linarith [hv.2] : 0 ≤ 1 - lfoValue c phase) hd]

end Sys2Proof.Machine
end

