-- ==== Sys2Proof/Laws/Decode.lean ====
section
/-! SUPPORT. The fields of an encoded command word (spec 30_encoding.md R49, R50). -/

namespace Sys2Proof

variable (op : BitVec 2) (cat chan : Nibble) (d1 d2 : Data7)

theorem getLsbD_encodeFields (i : Nat) :
    (encodeFields op cat chan d1 d2).getLsbD i =
      if i < 7 then d2.getLsbD i else if i < 8 then false else if i < 15 then d1.getLsbD (i - 8)
      else if i < 16 then false else if i < 20 then chan.getLsbD (i - 16) else if i < 24 then cat.getLsbD (i - 20)
      else op.getLsbD (i - 24) := by
  simp only [encodeFields, BitVec.getLsbD_append]
  split_ifs <;> first
    | rfl
    | omega
    | simp

@[simp] theorem opField_encodeFields : opField (encodeFields op cat chan d1 d2) = op := by
  ext i hi
  simp only [opField, ← BitVec.getLsbD_eq_getElem, BitVec.getLsbD_extractLsb', getLsbD_encodeFields, hi, decide_true,
    Bool.true_and]
  split_ifs <;> first | omega | (congr 1; omega)

@[simp] theorem catField_encodeFields : catField (encodeFields op cat chan d1 d2) = cat := by
  ext i hi
  simp only [catField, ← BitVec.getLsbD_eq_getElem, BitVec.getLsbD_extractLsb', getLsbD_encodeFields, hi, decide_true,
    Bool.true_and]
  split_ifs <;> first | omega | (congr 1; omega)

@[simp] theorem chanField_encodeFields : chanField (encodeFields op cat chan d1 d2) = chan := by
  ext i hi
  simp only [chanField, ← BitVec.getLsbD_eq_getElem, BitVec.getLsbD_extractLsb', getLsbD_encodeFields, hi,
    decide_true, Bool.true_and]
  split_ifs <;> first | omega | (congr 1; omega)

@[simp] theorem d1Field_encodeFields : d1Field (encodeFields op cat chan d1 d2) = d1 := by
  ext i hi
  simp only [d1Field, ← BitVec.getLsbD_eq_getElem, BitVec.getLsbD_extractLsb', getLsbD_encodeFields, hi, decide_true,
    Bool.true_and]
  split_ifs <;> first | omega | (congr 1; omega)

@[simp] theorem d2Field_encodeFields : d2Field (encodeFields op cat chan d1 d2) = d2 := by
  ext i hi
  simp only [d2Field, ← BitVec.getLsbD_eq_getElem, BitVec.getLsbD_extractLsb', getLsbD_encodeFields, hi, decide_true,
    Bool.true_and]
  split_ifs <;> first | omega | (congr 1; omega)

/-- Encoding the fields of a word again gives the word with its bits 15 and 7 cleared. -/
theorem encodeFields_fields (w : CmdWord) :
    encodeFields (opField w) (catField w) (chanField w) (d1Field w) (d2Field w) = w &&& 0x3FF7F7F#26 := by
  have hmask : ∀ i : Fin 26, (0x3FF7F7F#26).getLsbD i = decide (i.val ≠ 7 ∧ i.val ≠ 15) := by decide
  ext i hi
  have hm := hmask ⟨i, hi⟩
  simp only [← BitVec.getLsbD_eq_getElem, BitVec.getLsbD_and, getLsbD_encodeFields, opField, catField, chanField,
    d1Field, d2Field, BitVec.getLsbD_extractLsb'] at hm ⊢
  rw [hm]
  split_ifs <;> first
    | (have h7 : i ≠ 7 := by omega
       have h15 : i ≠ 15 := by omega
       simp only [h7, h15, ne_eq, not_false_eq_true, and_self, decide_true, Bool.and_true]
       rw [decide_eq_true (by omega), Bool.true_and]
       congr 1; omega)
    | (have h7 : i = 7 ∨ i = 15 := by omega
       rcases h7 with rfl | rfl <;> simp)

/-! Decoding, class by class (R49, R50, R53). -/

variable {cat chan d1 d2}

theorem decode_event {k : StatusCodes} {w : CmdWord} (h : opField w = 1) :
    decode k w = decodeEvt k (catField w) (chanField w) (d1Field w) (d2Field w) := by
  rw [decode, if_neg (by rw [h]; decide), if_pos h]

theorem decode_encodeFields_event (k : StatusCodes) :
    decode k (encodeFields 1 cat chan d1 d2) = decodeEvt k cat chan d1 d2 := by
  rw [decode_event (opField_encodeFields 1 cat chan d1 d2), catField_encodeFields, chanField_encodeFields,
    d1Field_encodeFields, d2Field_encodeFields]

theorem decodeEvt_noteOff (k : StatusCodes) : decodeEvt k k.noteOff chan d1 d2 = .noteOff chan d1 := if_pos rfl

theorem StatusCodes.distinct_iff (k : StatusCodes) :
    k.distinct = true ↔ k.noteOff ≠ k.noteOn ∧ k.noteOff ≠ k.cc ∧ k.noteOn ≠ k.cc := by
  simp [StatusCodes.distinct, and_assoc]

theorem StatusCodes.ignores_iff (k : StatusCodes) :
    k.ignores cat = true ↔ cat ≠ k.noteOff ∧ cat ≠ k.noteOn ∧ cat ≠ k.cc := by
  simp [StatusCodes.ignores, and_assoc]

theorem decodeEvt_noteOn {k : StatusCodes} (h : k.distinct = true) :
    decodeEvt k k.noteOn chan d1 d2 = .noteOn chan d1 d2 := by
  rw [decodeEvt, if_neg ((StatusCodes.distinct_iff k).mp h).1.symm, if_pos rfl]

theorem decodeEvt_cc {k : StatusCodes} (h : k.distinct = true) :
    decodeEvt k k.cc chan d1 d2 = decodeCc chan d1 d2 := by
  obtain ⟨-, h1, h2⟩ := (StatusCodes.distinct_iff k).mp h
  rw [decodeEvt, if_neg h1.symm, if_neg h2.symm, if_pos rfl]

theorem decodeEvt_ignored {k : StatusCodes} (h : k.ignores cat = true) :
    decodeEvt k cat chan d1 d2 = decodeIgnored cat chan := by
  obtain ⟨h0, h1, h2⟩ := (StatusCodes.ignores_iff k).mp h
  rw [decodeEvt, if_neg h0, if_neg h1, if_neg h2]

variable {id val : Data7}

/-- The ids from 8 up are told apart by their range alone (R53, R54). -/
theorem decodeCc_unmapped (h : 8 ≤ id.toNat) :
    decodeCc chan id val =
      if id.toNat < 16 then .ccIgn0 chan id val else if id.toNat < 32 then .ccIgn1 chan id val
      else if id.toNat < 64 then .ccIgn2 chan id val else .ccIgn3 chan id val := by
  have named (n : Nat) (hn : n < 8) : id.toNat ≠ n := by omega
  simp only [decodeCc, named, Nat.reduceLT, if_false]

theorem decodeCc_ign0 (h : 8 ≤ id.toNat) (h' : id.toNat < 16) : decodeCc chan id val = .ccIgn0 chan id val := by
  rw [decodeCc_unmapped h, if_pos h']

theorem decodeCc_ign1 (h : 16 ≤ id.toNat) (h' : id.toNat < 32) : decodeCc chan id val = .ccIgn1 chan id val := by
  rw [decodeCc_unmapped (by omega), if_neg h.not_gt, if_pos h']

theorem decodeCc_ign2 (h : 32 ≤ id.toNat) (h' : id.toNat < 64) : decodeCc chan id val = .ccIgn2 chan id val := by
  have h16 : ¬ id.toNat < 16 := by omega
  rw [decodeCc_unmapped (by omega), if_neg h16, if_neg h.not_gt, if_pos h']

theorem decodeCc_ign3 (h : 64 ≤ id.toNat) : decodeCc chan id val = .ccIgn3 chan id val := by
  have h16 : ¬ id.toNat < 16 := by omega
  have h32 : ¬ id.toNat < 32 := by omega
  rw [decodeCc_unmapped (by omega), if_neg h16, if_neg h32, if_neg h.not_gt]

/-- The controller ids fall into the twelve rows (R53). -/
theorem controllerId_cases (id : Data7) :
    id = 0 ∨ id = 1 ∨ id = 2 ∨ id = 3 ∨ id = 4 ∨ id = 5 ∨ id = 6 ∨ id = 7 ∨
      (8 ≤ id.toNat ∧ id.toNat < 16) ∨ (16 ≤ id.toNat ∧ id.toNat < 32) ∨ (32 ≤ id.toNat ∧ id.toNat < 64) ∨
      64 ≤ id.toNat := by
  have named (n : Nat) : id.toNat = n → id = BitVec.ofNat 7 n := fun h => by
    rw [← h, BitVec.ofNat_toNat, BitVec.setWidth_eq]
  rcases Nat.lt_or_ge id.toNat 8 with hlt | hge
  · have := named id.toNat rfl
    interval_cases id.toNat <;> simp_all
  · iterate 8 right
    omega

theorem decodeIgnored_0 (h : cat.toNat < 8) : decodeIgnored cat chan = .evtIgn0 cat chan := if_pos h

theorem decodeIgnored_1 (h : 8 ≤ cat.toNat) (h' : cat.toNat < 12) : decodeIgnored cat chan = .evtIgn1 cat chan := by
  rw [decodeIgnored, if_neg (by omega), if_pos h']

theorem decodeIgnored_2 (h : 12 ≤ cat.toNat) (h' : cat.toNat < 14) : decodeIgnored cat chan = .evtIgn2 cat chan := by
  have h8 : ¬ cat.toNat < 8 := by omega
  rw [decodeIgnored, if_neg h8, if_neg h.not_gt, if_pos h']

theorem decodeIgnored_3 (h : 14 ≤ cat.toNat) : decodeIgnored cat chan = .evtIgn3 cat chan := by
  have h8 : ¬ cat.toNat < 8 := by omega
  have h12 : ¬ cat.toNat < 12 := by omega
  rw [decodeIgnored, if_neg h8, if_neg h12, if_neg h.not_gt]

/-- Two words with the same fields differ in bits 15 and 7 only, and decode alike (R50, R51). -/
theorem decode_congr {k : StatusCodes} {w w' : CmdWord} (h : w &&& 0x3FF7F7F#26 = w' &&& 0x3FF7F7F#26) :
    decode k w = decode k w' := by
  have h' : encodeFields (opField w) (catField w) (chanField w) (d1Field w) (d2Field w) =
      encodeFields (opField w') (catField w') (chanField w') (d1Field w') (d2Field w') := by
    rw [encodeFields_fields, encodeFields_fields, h]
  have ho := congrArg opField h'
  have hc := congrArg catField h'
  have hn := congrArg chanField h'
  have h1 := congrArg d1Field h'
  have h2 := congrArg d2Field h'
  simp only [opField_encodeFields, catField_encodeFields, chanField_encodeFields, d1Field_encodeFields,
    d2Field_encodeFields] at ho hc hn h1 h2
  rw [decode, decode, ho, hc, hn, h1, h2]

end Sys2Proof
end

