-- ==== Sys2Proof/Laws/Delay.lean ====
section
/-! SUPPORT. DLY.STEP (spec 45_delay.md): its three cases. -/

namespace Sys2Proof.Machine

variable {c : Cfg}

theorem dlyStep_bypass (h : c.dlOffset = 0) (d : Delay) (x : NumVal) : dlyStep c d x = (d, x) := by
  simp [dlyStep, h]

/-- The ring fills: push, no pop, a silent tap (R120). -/
theorem dlyStep_fill {d : Delay} (h0 : c.dlOffset ≠ 0) (h : d.len + 1 ≤ c.dlOffset) (x : NumVal) :
    dlyStep c d x =
      ({ head := d.head, len := d.len + 1, buf := d.buf.write ((d.head + d.len) % c.dlCap) x },
        c.num.add (c.num.mul c.dlDry x) (c.num.mul c.dlWet (c.num.ofInt 0))) := by
  have : ¬ c.dlOffset < d.len + 1 := by omega
  simp [dlyStep, dlyPush, h0, this]

/-- The ring is full: push, then pop of the head (R120). -/
theorem dlyStep_full {d : Delay} (h0 : c.dlOffset ≠ 0) (h : c.dlOffset < d.len + 1) (x : NumVal) :
    dlyStep c d x =
      ({ head := (d.head + 1) % c.dlCap, len := d.len, buf := d.buf.write ((d.head + d.len) % c.dlCap) x },
        c.num.add (c.num.mul c.dlDry x)
          (c.num.mul c.dlWet ((d.buf.write ((d.head + d.len) % c.dlCap) x).read d.head))) := by
  simp [dlyStep, dlyPush, dlyPop, h0, h]

/-- What a call of DLY.STEP keeps of the ring's shape (R26, R42). -/
theorem dlyStep_shape {d : Delay} (hh : d.head < c.dlCap) (hl : d.len ≤ c.dlOffset)
    (hb : Mem.Within d.buf c.dlCap) (x : NumVal) :
    (dlyStep c d x).1.head < c.dlCap ∧ (dlyStep c d x).1.len ≤ c.dlOffset ∧
      Mem.Within (dlyStep c d x).1.buf c.dlCap := by
  have hpos : 0 < c.dlCap := by omega
  by_cases h0 : c.dlOffset = 0
  · simpa [dlyStep_bypass h0] using ⟨hh, hl, hb⟩
  · by_cases hf : d.len + 1 ≤ c.dlOffset
    · rw [dlyStep_fill h0 hf]
      exact ⟨hh, hf, Mem.Within_write hb (Nat.mod_lt _ hpos) x⟩
    · rw [dlyStep_full h0 (by omega)]
      exact ⟨Nat.mod_lt _ hpos, hl, Mem.Within_write hb (Nat.mod_lt _ hpos) x⟩

/-- DLY.STEP writes one element of the ring at most. -/
theorem dlyStep_buf (d : Delay) (x : NumVal) :
    (dlyStep c d x).1.buf = if c.dlOffset = 0 then d.buf else d.buf.write ((d.head + d.len) % c.dlCap) x := by
  by_cases h0 : c.dlOffset = 0
  · simp [dlyStep_bypass h0, h0]
  · rw [if_neg h0]
    by_cases hf : d.len + 1 ≤ c.dlOffset
    · rw [dlyStep_fill h0 hf]
    · rw [dlyStep_full h0 (by omega)]

end Sys2Proof.Machine
end

