-- ==== Sys2Proof/Laws/Envelope.lean ====
section
/-! SUPPORT. ENV.STEP (spec 41_envelope.md): what each edge case does, and the ranges it keeps. -/

namespace Sys2Proof.Machine

variable {c : Cfg} (k : Control)

/-- ENV.STEP writes the envelope registers only (R70). -/
theorem envStep_frame (g : Bool) (v : Voice) :
    (envStep c k g v).1 =
      { v with
        envStage := (envStep c k g v).1.envStage
        envTime := (envStep c k g v).1.envTime
        envRtime := (envStep c k g v).1.envRtime
        envLast := (envStep c k g v).1.envLast
        envAtt := (envStep c k g v).1.envAtt
        envStart := (envStep c k g v).1.envStart
        envGate := (envStep c k g v).1.envGate } := by
  simp only [envStep, envTimers, envAuto, envEdges]
  split_ifs <;> first | rfl | (simp only; split <;> rfl)

@[simp] theorem envStep_att (g : Bool) (v : Voice) : (envStep c k g v).1.envAtt = (envStep c k g v).2 := rfl

@[simp] theorem envStep_gate (g : Bool) (v : Voice) : (envStep c k g v).1.gate = v.gate := by rw [envStep_frame]
@[simp] theorem envStep_pitch (g : Bool) (v : Voice) : (envStep c k g v).1.pitch = v.pitch := by rw [envStep_frame]
@[simp] theorem envStep_freq (g : Bool) (v : Voice) : (envStep c k g v).1.freq = v.freq := by rw [envStep_frame]
@[simp] theorem envStep_vel (g : Bool) (v : Voice) : (envStep c k g v).1.vel = v.vel := by rw [envStep_frame]
@[simp] theorem envStep_oscPhase (g : Bool) (v : Voice) : (envStep c k g v).1.oscPhase = v.oscPhase := by
  rw [envStep_frame]
@[simp] theorem envStep_fltS0 (g : Bool) (v : Voice) : (envStep c k g v).1.fltS0 = v.fltS0 := by rw [envStep_frame]
@[simp] theorem envStep_fltS1 (g : Bool) (v : Voice) : (envStep c k g v).1.fltS1 = v.fltS1 := by rw [envStep_frame]
@[simp] theorem envStep_fltS2 (g : Bool) (v : Voice) : (envStep c k g v).1.fltS2 = v.fltS2 := by rw [envStep_frame]
@[simp] theorem envStep_fltS3 (g : Bool) (v : Voice) : (envStep c k g v).1.fltS3 = v.fltS3 := by rw [envStep_frame]

/-! The three edge cases (R71). -/

theorem envEdges_rising {v : Voice} (h : v.envGate = false) :
    envEdges c true v = { v with envGate := true, envStage := .attack, envTime := 0, envStart := v.envAtt } := by
  simp [envEdges, risingEdge, h]

theorem envEdges_falling {v : Voice} (h : v.envGate = true) :
    envEdges c false v = { v with envGate := false, envStage := .release, envRtime := 0, envLast := v.envAtt } := by
  simp [envEdges, risingEdge, fallingEdge, h]

theorem envEdges_none {g : Bool} {v : Voice} (h : v.envGate = g) : envEdges c g v = v := by
  subst h
  simp [envEdges, risingEdge, fallingEdge]

/-- The voice once the edge and the automatic transition are done (R71, R72). -/
def envSettled (c : Cfg) (k : Control) (g : Bool) (v : Voice) : Voice := envAuto c k (envEdges c g v)

theorem envStep_eq (g : Bool) (v : Voice) :
    envStep c k g v =
      ({ envTimers c (envOutput c k (envSettled c k g v)) (envSettled c k g v) with
          envAtt := envOutput c k (envSettled c k g v) }, envOutput c k (envSettled c k g v)) := rfl

/-- The automatic transition is due (R72). -/
def attackDone (c : Cfg) (k : Control) (time : NumVal) : Bool :=
  c.num.le k.attack (c.num.ofInt 0) || c.num.le k.attack time

theorem envAuto_attack {v : Voice} (h : v.envStage = .attack) :
    envAuto c k v = { v with envStage := if attackDone c k v.envTime then .decaySustain else .attack } := by
  by_cases hd : attackDone c k v.envTime = true
  · have : (c.num.le k.attack (c.num.ofInt 0) || c.num.le k.attack v.envTime) = true := hd
    simp only [envAuto, h, this, and_self, if_true, hd]
  · have : (c.num.le k.attack (c.num.ofInt 0) || c.num.le k.attack v.envTime) = false := by simpa [attackDone] using hd
    simp only [envAuto, h, this, Bool.false_eq_true, and_false, if_false, hd]
    rw [← h]

theorem envAuto_other {v : Voice} (h : v.envStage ≠ .attack) : envAuto c k v = v := by
  simp [envAuto, h]

/-- `attackDone` under the reference `NUM`. -/
theorem attackDone_exact (hx : c.num = .exact) (time : NumVal) :
    attackDone c k time = true ↔ k.attack ≤ 0 ∨ k.attack ≤ time := by
  simp [attackDone, hx]

end Sys2Proof.Machine
end

