-- ==== Sys2Proof/Laws/Filter.lean ====
section
/-! SUPPORT. FLT.PROC (spec 42_filter.md): what it leaves alone, and one stage as a convex combination (R83). -/

namespace Sys2Proof.Machine

variable {c : Cfg} {k : Control}

/-- FLT.PROC writes the four stages only. -/
theorem fltProc_frame (v : Voice) (x : NumVal) :
    (fltProc c k v x).1 =
      { v with
        fltS0 := (fltProc c k v x).1.fltS0
        fltS1 := (fltProc c k v x).1.fltS1
        fltS2 := (fltProc c k v x).1.fltS2
        fltS3 := (fltProc c k v x).1.fltS3 } := rfl

/-- It returns the new last stage. -/
theorem fltProc_output (v : Voice) (x : NumVal) : (fltProc c k v x).2 = (fltProc c k v x).1.fltS3 := rfl

/-- One stage moves toward its input by the fraction `cutoff`, so it stays within the bounds of both. -/
theorem abs_onePole_le {cut s x M : Rat} (h0 : 0 ≤ cut) (h1 : cut ≤ 1) (hs : |s| ≤ M) (hx : |x| ≤ M) :
    |s + cut * (x - s)| ≤ M := by
  rw [abs_le] at *
  constructor <;> nlinarith [mul_nonneg h0 (by linarith : 0 ≤ M - x), mul_nonneg h0 (by linarith : 0 ≤ M + x),
    mul_nonneg (sub_nonneg.mpr h1) (by linarith : 0 ≤ M - s), mul_nonneg (sub_nonneg.mpr h1) (by linarith : 0 ≤ M + s)]

end Sys2Proof.Machine
end

