-- ==== Sys2Proof/Laws/State.lean ====
section
/-! SUPPORT. One lemma per field per update of the state (spec 10_state.md): what each update writes and what it leaves
alone. -/

namespace Sys2Proof.Machine

/-! Taking a transaction from the host. -/

@[simp] theorem takeTransaction_cfg (s : State) : (takeTransaction s).cfg = s.cfg := rfl
@[simp] theorem takeTransaction_voices (s : State) : (takeTransaction s).voices = s.voices := rfl
@[simp] theorem takeTransaction_control (s : State) : (takeTransaction s).control = s.control := rfl
@[simp] theorem takeTransaction_chorus (s : State) : (takeTransaction s).chorus = s.chorus := rfl
@[simp] theorem takeTransaction_delay (s : State) : (takeTransaction s).delay = s.delay := rfl
@[simp] theorem takeTransaction_pending (s : State) : (takeTransaction s).pending = s.pending.tail := rfl
@[simp] theorem takeTransaction_outputs (s : State) : (takeTransaction s).outputs = s.outputs := rfl

/-! The state after construction and RESET. -/

@[simp] theorem resetWith_cfg (c : Cfg) : (State.resetWith c).cfg = c := rfl
@[simp] theorem resetWith_voices (c : Cfg) : (State.resetWith c).voices = List.replicate c.nvoices Voice.reset := rfl
@[simp] theorem resetWith_control (c : Cfg) : (State.resetWith c).control = Control.reset c := rfl
@[simp] theorem resetWith_chorus (c : Cfg) : (State.resetWith c).chorus = Chorus.reset c := rfl
@[simp] theorem resetWith_delay (c : Cfg) : (State.resetWith c).delay = Delay.reset := rfl
@[simp] theorem resetWith_pending (c : Cfg) : (State.resetWith c).pending = [] := rfl
@[simp] theorem resetWith_outputs (c : Cfg) : (State.resetWith c).outputs = [] := rfl

/-! The RESET transaction. -/

@[simp] theorem resetTransaction_cfg (s : State) : (resetTransaction s).cfg = s.cfg := rfl
@[simp] theorem resetTransaction_voices (s : State) :
    (resetTransaction s).voices = List.replicate s.cfg.nvoices Voice.reset := rfl
@[simp] theorem resetTransaction_control (s : State) : (resetTransaction s).control = Control.reset s.cfg := rfl
@[simp] theorem resetTransaction_chorus (s : State) : (resetTransaction s).chorus = Chorus.reset s.cfg := rfl
@[simp] theorem resetTransaction_delay (s : State) : (resetTransaction s).delay = Delay.reset := rfl
@[simp] theorem resetTransaction_pending (s : State) : (resetTransaction s).pending = s.pending := rfl
@[simp] theorem resetTransaction_outputs (s : State) : (resetTransaction s).outputs = s.outputs := rfl

/-! TICK. -/

@[simp] theorem tick_cfg (s : State) : (tick s).cfg = s.cfg := rfl
@[simp] theorem tick_voices (s : State) : (tick s).voices = tickVoices s := rfl
@[simp] theorem tick_control (s : State) : (tick s).control = s.control := rfl
@[simp] theorem tick_chorus (s : State) : (tick s).chorus = (tickChorus s).1 := rfl
@[simp] theorem tick_delay (s : State) : (tick s).delay = (tickDelay s).1 := rfl
@[simp] theorem tick_pending (s : State) : (tick s).pending = s.pending := rfl
@[simp] theorem tick_outputs (s : State) : (tick s).outputs = s.outputs ++ [tickOutput s] := rfl

/-! The gate flag. -/

@[simp] theorem clearGate_gate (v : Voice) : v.clearGate.gate = false := rfl
@[simp] theorem clearGate_pitch (v : Voice) : v.clearGate.pitch = v.pitch := rfl
@[simp] theorem clearGate_freq (v : Voice) : v.clearGate.freq = v.freq := rfl
@[simp] theorem clearGate_vel (v : Voice) : v.clearGate.vel = v.vel := rfl
@[simp] theorem clearGate_oscPhase (v : Voice) : v.clearGate.oscPhase = v.oscPhase := rfl
@[simp] theorem clearGate_envStage (v : Voice) : v.clearGate.envStage = v.envStage := rfl
@[simp] theorem clearGate_envTime (v : Voice) : v.clearGate.envTime = v.envTime := rfl
@[simp] theorem clearGate_envRtime (v : Voice) : v.clearGate.envRtime = v.envRtime := rfl
@[simp] theorem clearGate_envLast (v : Voice) : v.clearGate.envLast = v.envLast := rfl
@[simp] theorem clearGate_envAtt (v : Voice) : v.clearGate.envAtt = v.envAtt := rfl
@[simp] theorem clearGate_envStart (v : Voice) : v.clearGate.envStart = v.envStart := rfl
@[simp] theorem clearGate_envGate (v : Voice) : v.clearGate.envGate = v.envGate := rfl
@[simp] theorem clearGate_fltS0 (v : Voice) : v.clearGate.fltS0 = v.fltS0 := rfl
@[simp] theorem clearGate_fltS1 (v : Voice) : v.clearGate.fltS1 = v.fltS1 := rfl
@[simp] theorem clearGate_fltS2 (v : Voice) : v.clearGate.fltS2 = v.fltS2 := rfl
@[simp] theorem clearGate_fltS3 (v : Voice) : v.clearGate.fltS3 = v.fltS3 := rfl

end Sys2Proof.Machine
end

