-- ==== Sys2Proof/Laws/Engine.lean ====
section
/-! SUPPORT. VOICE.STEP and TICK (spec 46_engine.md): when TICK runs, what it leaves alone, and what each voice becomes. -/

namespace Sys2Proof.Machine

/-- A TICK inside the spec answers the state of R131. -/
theorem exec_tick_of_runs {s : State} (h : s.TickRuns) : exec .tick s = .next (tick s) := by
  simp [exec, execTick, h.cutoff, h.phases]

/-- TICK answers in three ways. -/
theorem exec_tick_cases (s : State) :
    (s.TickRuns ∧ exec .tick s = .next (tick s)) ∨
      (cutoffInSpec s.cfg s.control = false ∧ exec .tick s = .refused .cutoffOutOfSpec) ∨
      (cutoffInSpec s.cfg s.control = true ∧ tickPhasesInRange s = false ∧
        exec .tick s = .refused .phaseOutOfRange) := by
  cases hc : cutoffInSpec s.cfg s.control
  · exact .inr (.inl ⟨rfl, by simp [exec, execTick, hc]⟩)
  · cases hp : tickPhasesInRange s
    · exact .inr (.inr ⟨rfl, rfl, by simp [exec, execTick, hc, hp]⟩)
    · exact .inl ⟨⟨hc, hp⟩, by simp [exec, execTick, hc, hp]⟩

theorem tick_of_exec {s t : State} (h : exec .tick s = .next t) : t = tick s := by
  rcases exec_tick_cases s with ⟨-, h'⟩ | ⟨-, h'⟩ | ⟨-, -, h'⟩ <;> rw [h'] at h <;> cases h
  rfl

/-- VOICE.STEP leaves the note registers alone (R130). -/
@[simp] theorem voiceStep_gate (c : Cfg) (k : Control) (v : Voice) : (voiceStep c k v).1.gate = v.gate := by
  simp only [voiceStep, voiceFilter, envStep_gate]; split <;> rfl
@[simp] theorem voiceStep_pitch (c : Cfg) (k : Control) (v : Voice) : (voiceStep c k v).1.pitch = v.pitch := by
  simp only [voiceStep, voiceFilter, envStep_pitch]; split <;> rfl
@[simp] theorem voiceStep_freq (c : Cfg) (k : Control) (v : Voice) : (voiceStep c k v).1.freq = v.freq := by
  simp only [voiceStep, voiceFilter, envStep_freq]; split <;> rfl
@[simp] theorem voiceStep_vel (c : Cfg) (k : Control) (v : Voice) : (voiceStep c k v).1.vel = v.vel := by
  simp only [voiceStep, voiceFilter, envStep_vel]; split <;> rfl
@[simp] theorem voiceStep_oscPhase (c : Cfg) (k : Control) (v : Voice) :
    (voiceStep c k v).1.oscPhase = phaseAdvance c v.oscPhase v.freq := by
  simp only [voiceStep, voiceFilter, envStep_oscPhase]; split <;> rfl

/-- The voice that ENV.STEP sees in a VOICE.STEP: oscillator and filter done (R130). -/
def voiceFiltered (c : Cfg) (k : Control) (v : Voice) : Voice × NumVal :=
  voiceFilter c k (oscStep c k v).1 (oscStep c k v).2

theorem voiceStep_eq (c : Cfg) (k : Control) (v : Voice) :
    voiceStep c k v =
      ((envStep c k v.gate (voiceFiltered c k v).1).1,
        c.num.mul (voiceFiltered c k v).2 (envStep c k v.gate (voiceFiltered c k v).1).2) := by
  have : (voiceFiltered c k v).1.gate = v.gate := by simp only [voiceFiltered, voiceFilter]; split <;> rfl
  rw [← this]; rfl

/-- ENV.STEP does not look at the oscillator and filter registers, so the envelope of a voice in a TICK is ENV.STEP of
the voice before it. -/
theorem voiceStep_env (c : Cfg) (k : Control) (v : Voice) :
    (voiceStep c k v).1 =
      { (envStep c k v.gate v).1 with
        oscPhase := phaseAdvance c v.oscPhase v.freq
        fltS0 := (voiceFiltered c k v).1.fltS0
        fltS1 := (voiceFiltered c k v).1.fltS1
        fltS2 := (voiceFiltered c k v).1.fltS2
        fltS3 := (voiceFiltered c k v).1.fltS3 } := by
  rw [voiceStep_eq]
  obtain ⟨s0, s1, s2, s3, hv⟩ : ∃ s0 s1 s2 s3, (voiceFiltered c k v).1 =
      { v with oscPhase := phaseAdvance c v.oscPhase v.freq, fltS0 := s0, fltS1 := s1, fltS2 := s2, fltS3 := s3 } := by
    simp only [voiceFiltered, voiceFilter]
    split
    · exact ⟨_, _, _, _, rfl⟩
    · exact ⟨v.fltS0, v.fltS1, v.fltS2, v.fltS3, rfl⟩
  have henv (o s0 s1 s2 s3 : NumVal) :
      envStep c k v.gate { v with oscPhase := o, fltS0 := s0, fltS1 := s1, fltS2 := s2, fltS3 := s3 } =
        ({ (envStep c k v.gate v).1 with oscPhase := o, fltS0 := s0, fltS1 := s1, fltS2 := s2, fltS3 := s3 },
          (envStep c k v.gate v).2) := by
    simp only [envStep, envTimers, envOutput, envAuto, envEdges, attackOutput, decayOutput, releaseOutput]
    split_ifs <;> first | rfl | (simp only; split <;> simp_all)
  rw [hv, henv (phaseAdvance c v.oscPhase v.freq) s0 s1 s2 s3]

/-- The attenuation of a TICK is ENV.STEP's (R130). -/
theorem voiceStep_att (c : Cfg) (k : Control) (v : Voice) :
    (voiceStep c k v).1.envAtt = (envStep c k v.gate v).2 := by
  rw [voiceStep_env]; rfl

/-- The contribution is the filtered sample times the attenuation (R130). -/
theorem voiceStep_contribution (c : Cfg) (k : Control) (v : Voice) :
    (voiceStep c k v).2 = c.num.mul (voiceFiltered c k v).2 (voiceStep c k v).1.envAtt := by
  rw [voiceStep_eq]; rfl

theorem tickVoices_getElem? {s : State} {v : Nat} {x : Voice} (h : s.voices[v]? = some x) :
    (tickVoices s)[v]? = some (voiceStep s.cfg s.control x).1 := by
  simp [tickVoices, h]

@[simp] theorem tickVoices_length (s : State) : (tickVoices s).length = s.voices.length := by simp [tickVoices]

/-- Under the reference `NUM` a legal configuration keeps every phase in range (R65). -/
theorem tickPhasesInRange_exact {s : State} (hx : s.cfg.num = .exact) (hl : s.cfg.legal = true) :
    tickPhasesInRange s = true := by
  simp only [tickPhasesInRange, Bool.and_eq_true, Bool.or_eq_true, List.all_eq_true]
  refine ⟨fun v hv => ?_, .inr fun p hp => phaseInRange_of_inTable hx (lfoAdvanceAll_inTable hx hl p hp)⟩
  obtain ⟨x, -, rfl⟩ := List.mem_map.mp hv
  rw [voiceStep_oscPhase]
  exact phaseInRange_of_inTable hx (phaseAdvance_inTable hx hl _ _)

theorem State.TickReady.runs {s : State} (h : s.TickReady) : s.TickRuns :=
  ⟨h.cutoff, tickPhasesInRange_exact h.exact h.legal⟩

theorem State.TickReady.tick {s : State} (h : s.TickReady) : (tick s).TickReady := ⟨h.exact, h.legal, h.cutoff⟩

end Sys2Proof.Machine
end

