-- ==== Sys2Proof/Laws/VoicePool.lean ====
section
/-! SUPPORT. The scans of NOTE_ON and NOTE_OFF (spec 43_voice_pool.md R90, R91), as facts about the voice array. -/

namespace Sys2Proof.Machine

variable {p : Data7} {f : NumVal} {vel : Data7}

/-- With no free voice nothing is written. -/
theorem allocate_full {vs : List Voice} (h : ∀ x ∈ vs, x.gate = true) : allocate p f vel vs = vs := by
  induction vs with
  | nil => rfl
  | cons v vs ih =>
    have hv : v.isFree = false := by simp [Voice.isFree, h v (by simp)]
    simp [allocate, hv, ih fun x hx => h x (List.mem_cons_of_mem _ hx)]

/-- The first free voice takes the note. -/
theorem allocate_first {vs : List Voice} {v : Nat} {x : Voice} (hx : vs[v]? = some x) (hf : x.gate = false)
    (hb : ∀ (u : Nat) (y : Voice), u < v → vs[u]? = some y → y.gate = true) :
    allocate p f vel vs = vs.set v { x with pitch := p, freq := f, vel := vel, gate := true } := by
  induction vs generalizing v with
  | nil => simp at hx
  | cons a vs ih =>
    cases v with
    | zero =>
      simp only [List.getElem?_cons_zero, Option.some.injEq] at hx
      subst hx
      simp [allocate, Voice.isFree, hf]
    | succ v =>
      have ha : a.isFree = false := by simp [Voice.isFree, hb 0 a (by omega) (by simp)]
      have := ih (v := v) (by simpa using hx) (fun u y hu hy => hb (u + 1) y (by omega) (by simpa using hy))
      simp [allocate, ha, this]

@[simp] theorem allocate_length (vs : List Voice) : (allocate p f vel vs).length = vs.length := by
  induction vs with
  | nil => rfl
  | cons v vs ih => by_cases h : v.isFree = true <;> simp [allocate, h, ih]

/-- A voice after the scan is the voice before it, but for its note registers. -/
theorem allocate_getElem? {vs : List Voice} {v : Nat} {x : Voice} (hx : vs[v]? = some x) :
    (allocate p f vel vs)[v]? = some x ∨
      (allocate p f vel vs)[v]? = some { x with pitch := p, freq := f, vel := vel, gate := true } := by
  induction vs generalizing v with
  | nil => simp at hx
  | cons a vs ih =>
    by_cases h : a.isFree = true
    · cases v with
      | zero =>
        simp only [List.getElem?_cons_zero, Option.some.injEq] at hx
        subst hx
        simp [allocate, h]
      | succ v => left; simpa [allocate, h] using hx
    · cases v with
      | zero => left; simpa [allocate, h] using hx
      | succ v => simpa [allocate, h] using ih (v := v) (by simpa using hx)

@[simp] theorem releasePitch_length (vs : List Voice) : (releasePitch p vs).length = vs.length := by
  simp [releasePitch]

theorem releasePitch_getElem? {vs : List Voice} {v : Nat} {x : Voice} (hx : vs[v]? = some x) :
    (releasePitch p vs)[v]? = some (if x.pitch = p then x.clearGate else x) := by
  simp [releasePitch, hx]

end Sys2Proof.Machine
end

