-- ==== Sys2Proof/Laws/Step.lean ====
section
/-! SUPPORT. Every command and the step: what they leave alone (spec 10_state.md R13, R22, R23). -/

namespace Sys2Proof.Machine

/-- What a command that is no TICK can do: rewrite note registers, or control registers. -/
theorem exec_event {i : Instr} (hi : i ≠ .tick) (s : State) :
    ∃ vs k, exec i s = .next { s with voices := vs, control := k } := by
  cases i with
  | tick => exact absurd rfl hi
  | _ => exact ⟨_, _, rfl⟩

theorem exec_cfg {i : Instr} {s t : State} (h : exec i s = .next t) : t.cfg = s.cfg := by
  by_cases hi : i = .tick
  · subst hi; rw [tick_of_exec h]; rfl
  · obtain ⟨vs, k, he⟩ := exec_event hi s
    rw [he] at h; cases h; rfl

theorem exec_pending {i : Instr} {s t : State} (h : exec i s = .next t) : t.pending = s.pending := by
  by_cases hi : i = .tick
  · subst hi; rw [tick_of_exec h]; rfl
  · obtain ⟨vs, k, he⟩ := exec_event hi s
    rw [he] at h; cases h; rfl

/-- What a step can do. -/
theorem step_cases (s : State) :
    (s.pending = [] ∧ step s = .next s) ∨
      (s.pending ≠ [] ∧ s.cfg.legal = false ∧ step s = .refused .configOutOfSpec) ∨
      (∃ rest, s.pending = .reset :: rest ∧ s.cfg.legal = true ∧
        step s = .next (resetTransaction { s with pending := rest })) ∨
      ∃ w rest, s.pending = .command w :: rest ∧ s.cfg.legal = true ∧
        step s = exec (decode s.cfg.codes w) { s with pending := rest } := by
  unfold step
  cases hp : s.pending with
  | nil => simp
  | cons t rest =>
    have htake : takeTransaction s = { s with pending := rest } := by simp [takeTransaction, hp]
    cases hl : s.cfg.legal
    · simp
    · cases t with
      | reset => exact .inr (.inr (.inl ⟨rest, rfl, rfl, by simp [runTransaction, htake]⟩))
      | command w => exact .inr (.inr (.inr ⟨w, rest, rfl, rfl, by simp [runTransaction, htake]⟩))

end Sys2Proof.Machine
end

