-- ==== Sys2Proof/Tests/Slice0.lean ====
section
/-! SUPPORT. Tests of one operation each, whose expected values are the spec's (95_test_vectors.md and the examples of
the rules), the ill-formed terms that WellFormed refuses, and a witness for the hypotheses of each statement. -/

namespace Sys2Proof.Tests

set_option Elab.async false

open Sys2Proof.Machine

/-! ### The test configuration T (95_test_vectors.md) -/

/-- T: the configuration of State.reset with `CH_LEN = 8`. -/
def cfgT : Cfg := { Cfg.reset with chLen := 8 }

/-- T-nofilter, T-nodelay. -/
def cfgPlain : Cfg := { cfgT with filterEn := false, dlOffset := 0, dlCap := 1 }

/-- T with two bands (V1e). -/
def cfgBands : Cfg :=
  { cfgT with
    nbands := 2
    bandThresh := [1]
    wt := [[[0, 1, 0, -1], [-1, -1 / 2, 0, 1 / 2], [1, 1, -1, -1]],
      [[0, 1 / 2, 0, -1 / 2], [0, 0, 0, 0], [0, 0, 0, 0]]] }

theorem cfgT_legal : cfgT.legal = true := by decide +kernel
theorem cfgPlain_legal : cfgPlain.legal = true := by decide +kernel
theorem cfgBands_legal : cfgBands.legal = true := by decide +kernel
theorem cfgReset_legal : Cfg.reset.legal = true := by decide +kernel
theorem cfgReset_hardwareValues : Cfg.reset.hardwareValues = true := by decide +kernel

/-- The reset state under `c` with voice 0 and the control registers replaced. -/
def mk (c : Cfg) (v : Voice) (k : Control) : State :=
  { State.resetWith c with voices := v :: List.replicate 7 Voice.reset, control := k }

/-- The reset control registers under T. -/
def ctl : Control := Control.reset cfgT

/-- The envelope registers that V3 uses: attack, decay, sustain, release. -/
def adsr (a d s r : NumVal) : Control := { ctl with attack := a, decay := d, sustain := s, release := r }

def after (o : Host.Outcome State Fault Refusal) : Option State :=
  match o with
  | .next s => some s
  | .fault _ => none
  | .refused _ => none

def outputsAfter (s : State) : Option (List NumVal) := (after (exec .tick s)).map (fun t => t.outputs)

def controlAfter (i : Instr) : Option Control := (after (exec i (mk cfgT Voice.reset ctl))).map (fun t => t.control)

def gatesAfter (i : Instr) (s : State) : Option (List Bool) := (after (exec i s)).map (fun t => t.voices.map (fun v => v.gate))

/-- `gate = (1,1,1,0,...)`, `pitch = (60,64,60,0,...)` (V7). -/
def duplicates : State :=
  { State.resetWith cfgT with
    voices := { Voice.reset with gate := true, pitch := 60 } :: { Voice.reset with gate := true, pitch := 64 } ::
      { Voice.reset with gate := true, pitch := 60 } :: List.replicate 5 Voice.reset }

/-! ### WellFormed: each check with a term it refuses (30_encoding.md R53, R55) -/

theorem test_wellFormed_ccIgn0_low : (Instr.ccIgn0 0 7 0).wellFormed StatusCodes.midi = false := by decide
theorem test_wellFormed_ccIgn0_high : (Instr.ccIgn0 0 16 0).wellFormed StatusCodes.midi = false := by decide
theorem test_wellFormed_ccIgn1_low : (Instr.ccIgn1 0 15 0).wellFormed StatusCodes.midi = false := by decide
theorem test_wellFormed_ccIgn1_high : (Instr.ccIgn1 0 32 0).wellFormed StatusCodes.midi = false := by decide
theorem test_wellFormed_ccIgn2_low : (Instr.ccIgn2 0 31 0).wellFormed StatusCodes.midi = false := by decide
theorem test_wellFormed_ccIgn2_high : (Instr.ccIgn2 0 64 0).wellFormed StatusCodes.midi = false := by decide
theorem test_wellFormed_ccIgn3_low : (Instr.ccIgn3 0 63 0).wellFormed StatusCodes.midi = false := by decide
theorem test_wellFormed_evtIgn0_high : (Instr.evtIgn0 0xA 0).wellFormed StatusCodes.midi = false := by decide
theorem test_wellFormed_evtIgn0_code : (Instr.evtIgn0 3 0).wellFormed ⟨3, 4, 5⟩ = false := by decide
theorem test_wellFormed_evtIgn1_low : (Instr.evtIgn1 7 0).wellFormed StatusCodes.midi = false := by decide
theorem test_wellFormed_evtIgn1_high : (Instr.evtIgn1 0xC 0).wellFormed StatusCodes.midi = false := by decide
theorem test_wellFormed_evtIgn1_code : (Instr.evtIgn1 0xB 0).wellFormed StatusCodes.midi = false := by decide
theorem test_wellFormed_evtIgn2_low : (Instr.evtIgn2 0xA 0).wellFormed StatusCodes.midi = false := by decide
theorem test_wellFormed_evtIgn2_high : (Instr.evtIgn2 0xE 0).wellFormed StatusCodes.midi = false := by decide
theorem test_wellFormed_evtIgn2_code : (Instr.evtIgn2 0xC 0).wellFormed ⟨0xC, 4, 5⟩ = false := by decide
theorem test_wellFormed_evtIgn3_low : (Instr.evtIgn3 0xD 0).wellFormed StatusCodes.midi = false := by decide
theorem test_wellFormed_evtIgn3_code : (Instr.evtIgn3 0xF 0).wellFormed ⟨0xF, 4, 5⟩ = false := by decide

/-! ### Decoding: a word of each constructor, written from R49, R50, R53 (V7 where it lists one) -/

theorem test_decode_nop : decode StatusCodes.midi 0x0ABCDEF = .nop := by decide
theorem test_decode_tick : decode StatusCodes.midi 0x2FFFFFF = .tick := by decide
theorem test_decode_rsvdOp3 : decode StatusCodes.midi 0x3000000 = .rsvdOp3 := by decide
theorem test_decode_noteOff : decode StatusCodes.midi 0x1803C00 = .noteOff 0 60 := by decide
theorem test_decode_noteOn : decode StatusCodes.midi 0x1903C64 = .noteOn 0 60 100 := by decide
theorem test_decode_noteOn_masked : decode StatusCodes.midi 0x19388E4 = .noteOn 3 8 100 := by decide
/-- 01 1011 0000 | 0 0000000 | 0 0100001. -/
theorem test_decode_ccAttack : decode StatusCodes.midi 0b01101100000000000000100001 = .ccAttack 0 33 := by decide
theorem test_decode_ccDecay : decode StatusCodes.midi 0b01101100000000000100100001 = .ccDecay 0 33 := by decide
theorem test_decode_ccSustain : decode StatusCodes.midi 0x1B08240 = .ccSustain 0 64 := by decide
theorem test_decode_ccRelease : decode StatusCodes.midi 0x1B00321 = .ccRelease 0 33 := by decide
theorem test_decode_ccOscmix : decode StatusCodes.midi 0x1B0047F = .ccOscmix 0 127 := by decide
/-- 01 1011 0111 | 0 0000101 | 1 1000000: channel 7, bit 7 of the value set. -/
theorem test_decode_ccCutoff : decode StatusCodes.midi 0b01101101110000010111000000 = .ccCutoff 7 64 := by decide
theorem test_decode_ccResonance : decode StatusCodes.midi 0x1B00620 = .ccResonance 0 32 := by decide
theorem test_decode_ccChorusmix : decode StatusCodes.midi 0x1B0077F = .ccChorusmix 0 127 := by decide
theorem test_decode_ccIgn0 : decode StatusCodes.midi 0x1B00905 = .ccIgn0 0 9 5 := by decide
/-- 01 1011 0000 | 0 0011111 | 0 0000001. -/
theorem test_decode_ccIgn1 : decode StatusCodes.midi 0b01101100000001111100000001 = .ccIgn1 0 31 1 := by decide
/-- 01 1011 0000 | 0 0100000 | 0 0000001. -/
theorem test_decode_ccIgn2 : decode StatusCodes.midi 0b01101100000010000000000001 = .ccIgn2 0 32 1 := by decide
theorem test_decode_ccIgn3 : decode StatusCodes.midi 0x1B07F7F = .ccIgn3 0 127 127 := by decide
theorem test_decode_evtIgn0 : decode StatusCodes.midi 0x1000000 = .evtIgn0 0 0 := by decide
theorem test_decode_evtIgn1 : decode StatusCodes.midi 0x1A00864 = .evtIgn1 0xA 0 := by decide
theorem test_decode_evtIgn2 : decode StatusCodes.midi 0x1C03C00 = .evtIgn2 0xC 0 := by decide
theorem test_decode_evtIgn3 : decode StatusCodes.midi 0x1F00000 = .evtIgn3 0xF 0 := by decide
theorem test_decode_other_codes : decode ⟨1, 2, 3⟩ 0x1203C64 = .noteOn 0 60 100 := by decide
theorem test_decodePort_wide :
    decodePort StatusCodes.midi 0x6000000 = .error (.widerThanCommandWord 0x6000000) := rfl

/-- The worked encodings of R58. -/
theorem test_encode_worked :
    encode StatusCodes.midi (.noteOn 0 60 100) = 0x1903C64 ∧ encode StatusCodes.midi (.noteOff 0 60) = 0x1803C00 ∧
    encode StatusCodes.midi (.ccSustain 0 127) = 0x1B0027F ∧ encode StatusCodes.midi .tick = 0x2000000 := by decide

theorem test_opcodeTable_disjoint :
    opcodeTable.Pairwise (fun r r' => r.mask &&& r'.mask &&& (r.bits ^^^ r'.bits) ≠ 0) := by decide

/-! ### Oscillator (V1) -/

theorem test_phaseAdvance_multiple : phaseAdvance cfgT (7 / 2) (37 / 4) = 3 / 4 := by decide +kernel
theorem test_phaseAdvance_end : phaseAdvance cfgT (15 / 4) (1 / 4) = 0 := by decide +kernel
theorem test_tableRead_wrap : tableRead cfgT [0, 1, 0, -1] (15 / 4) = -1 / 4 := by decide +kernel
theorem test_tableRead_saw : tableRead cfgT [-1, -1 / 2, 0, 1 / 2] (5 / 4) = -3 / 8 := by decide +kernel
theorem test_bandSelect :
    [0, 19, 20, 39, 40, 1000].map (bandSelect { cfgT with nbands := 3, bandThresh := [20, 40] }) =
      [0, 0, 1, 1, 2, 2] := by decide +kernel
theorem test_oscStep :
    (oscStep cfgT { ctl with oscmix := [1 / 2, 1 / 4, 1] } { Voice.reset with oscPhase := 3, freq := 3 / 2 }).2 =
      17 / 16 := by decide +kernel
theorem test_oscStep_band :
    (oscStep cfgBands ctl { Voice.reset with oscPhase := 3 / 2, freq := 1 }).2 = -1 / 4 := by decide +kernel
theorem test_lfoValue : lfoValue cfgT (5 / 2) = -1 / 2 := by decide +kernel

/-! ### Envelope (V3) -/

/-- V3f, call 8: retrigger in Release. -/
theorem test_envStep_retrigger :
    (envStep cfgT (adsr 1 1 1 1) true
      { Voice.reset with envStage := .release, envAtt := 1 / 2, envRtime := 3 / 4, envLast := 1 }) =
      ({ Voice.reset with
          envStage := .attack, envAtt := 1 / 2, envRtime := 3 / 4, envLast := 1, envStart := 1 / 2, envTime := 1 / 4,
          envGate := true }, 1 / 2) := by decide +kernel
/-- V3b, call 0: attack 0 and decay above 0. -/
theorem test_envStep_attack0 : (envStep cfgT (adsr 0 1 (1 / 2) 1) true Voice.reset).2 = 1 := by decide +kernel
/-- V3c: attack 0 and decay 0. -/
theorem test_envStep_decay0 : (envStep cfgT (adsr 0 0 (1 / 2) 1) true Voice.reset).2 = 1 / 2 := by decide +kernel
/-- V3g, call 3: attack raised above the timer. -/
theorem test_envStep_clamped :
    (envStep cfgT (adsr 3 1 0 1) true
      { Voice.reset with envStage := .decaySustain, envAtt := 1, envTime := 3 / 4, envGate := true }).2 = 1 := by
  decide +kernel
/-- V3a, call 14: the release timer reaches `release`. -/
theorem test_envStep_released :
    (envStep cfgT (adsr 1 1 (1 / 2) 1) false
      { Voice.reset with envStage := .release, envAtt := 1 / 8, envRtime := 1, envLast := 1 / 2 }).1.envStage = .idle := by
  decide +kernel

/-! ### Filter (V4), chorus (V5), delay (V6) -/

/-- V4b, second call. -/
theorem test_fltProc :
    fltProc cfgT { ctl with resonance := 1 / 4 }
      { Voice.reset with fltS0 := 1 / 2, fltS1 := 1 / 4, fltS2 := 1 / 8, fltS3 := 1 / 16 } 0 =
      ({ Voice.reset with fltS0 := 11 / 32, fltS1 := 19 / 64, fltS2 := 27 / 128, fltS3 := 35 / 256 }, 35 / 256) := by
  decide +kernel
/-- V5a, call 2. -/
theorem test_choStep :
    choStep cfgT { ctl with chorusmix := 1 } { wc := 2, lfoPhase := [1, 2], buf := [(0, 1)] } 0 =
      ({ wc := 3, lfoPhase := [3 / 2, 3], buf := [(0, 1)] }, 1 / 2) := by decide +kernel
/-- V5d, the second bypassed call. -/
theorem test_choStep_bypass :
    choStep cfgT ctl { wc := 2, lfoPhase := [1, 2], buf := [(0, 1), (1, 2), (2, 9)] } 8 =
      ({ wc := 2, lfoPhase := [1, 2], buf := [(0, 1), (1, 2), (2, 8)] }, 8) := by decide +kernel
/-- V6a, call 4. -/
theorem test_dlyStep :
    dlyStep cfgT { head := 2, len := 2, buf := [(0, 4), (1, 2), (2, 3)] } 5 =
      ({ head := 0, len := 2, buf := [(0, 4), (1, 5), (2, 3)] }, 13 / 2) := by decide +kernel
/-- V6b. -/
theorem test_dlyStep_bypass : dlyStep cfgPlain Delay.reset 2 = (Delay.reset, 2) := by decide +kernel

/-! ### Commands (V7, V8, L3) -/

/-- P3, tick 1: the filter holds the stages of tick 0; chorus and delay still read zeros. -/
theorem test_tick_pipeline :
    ((after (exec .tick (mk cfgT
      { Voice.reset with
        gate := true, pitch := 16, freq := 1, oscPhase := 1, fltS0 := 1 / 2, fltS1 := 1 / 4, fltS2 := 1 / 8,
        fltS3 := 1 / 16, envStage := .decaySustain, envAtt := 1, envTime := 1 / 4, envGate := true }
      { ctl with oscmix := [0, 0, 1], resonance := 1 / 4, chorusmix := 1 }))).map
        (fun t => (t.chorus.buf, t.delay.len, t.outputs))) = some ([(0, 19 / 256)], 1, [0]) := by decide +kernel
/-- P1, tick 5. -/
theorem test_tick_note :
    outputsAfter (mk cfgPlain
      { Voice.reset with
        gate := true, pitch := 8, freq := 1 / 2, oscPhase := 5 / 2, envStage := .decaySustain, envAtt := 1,
        envTime := 5 / 4, envGate := true }
      (adsr 1 1 (64 / 127) 1)) = some [-3 / 40] := by decide +kernel
theorem test_nop : after (exec .nop duplicates) = some duplicates := rfl
theorem test_rsvdOp3 : after (exec .rsvdOp3 duplicates) = some duplicates := rfl
theorem test_noteOff_duplicates :
    gatesAfter (.noteOff 0 60) duplicates = some [false, true, false, false, false, false, false, false] := by
  decide +kernel
theorem test_noteOff_unheld :
    gatesAfter (.noteOff 0 9) duplicates = some [true, true, true, false, false, false, false, false] := by
  decide +kernel
theorem test_noteOn_first :
    ((after (exec (.noteOn 0 67 1) duplicates)).bind (fun t => t.voices[3]?)) =
      some { Voice.reset with gate := true, pitch := 67, freq := 67 / 16, vel := 1 } := by decide +kernel
theorem test_noteOn_release_slot :
    (allocate 67 (67 / 16) 1 (releasePitch 60 duplicates.voices)).map (fun v => v.pitch) =
      [67, 64, 60, 0, 0, 0, 0, 0] := by decide +kernel
theorem test_ccAttack : controlAfter (.ccAttack 0 99) = some { ctl with attack := 7 } := by decide +kernel
theorem test_ccDecay : controlAfter (.ccDecay 0 33) = some { ctl with decay := 1 } := by decide +kernel
theorem test_ccSustain : controlAfter (.ccSustain 0 64) = some { ctl with sustain := 64 / 127 } := by decide +kernel
theorem test_ccRelease : controlAfter (.ccRelease 0 66) = some { ctl with release := 3 } := by decide +kernel
theorem test_ccOscmix_low :
    controlAfter (.ccOscmix 0 32) = some { ctl with oscmix := [63 / 127, 64 / 127, 0] } := by decide +kernel
theorem test_ccOscmix_high :
    controlAfter (.ccOscmix 0 64) = some { ctl with oscmix := [0, 126 / 127, 1 / 127] } := by decide +kernel
theorem test_ccCutoff : controlAfter (.ccCutoff 0 64) = some { ctl with cutoff := 65 / 129 } := by decide +kernel
theorem test_ccResonance :
    controlAfter (.ccResonance 0 127) = some { ctl with resonance := 127 / 128 } := by decide +kernel
theorem test_ccChorusmix : controlAfter (.ccChorusmix 0 2) = some { ctl with chorusmix := 2 / 127 } := by decide +kernel
theorem test_ignored :
    [Instr.ccIgn0 0 9 5, .ccIgn1 0 16 5, .ccIgn2 0 32 5, .ccIgn3 0 127 127, .evtIgn0 0 0, .evtIgn1 0xA 0,
      .evtIgn2 0xC 0, .evtIgn3 0xF 0].all (fun i => decide (after (exec i duplicates) = some duplicates)) = true := by
  decide +kernel

/-! ### The step -/

/-- The first command after reset: NOTE_ON 60, 100 (R90's example). -/
theorem test_step_noteOn :
    ((after (step (State.reset.withFetchWord 26 0x1903C64))).bind (fun t => t.voices[0]?)) =
      some { Voice.reset with gate := true, pitch := 60, freq := 60 / 16, vel := 100 } := by decide +kernel
/-- From RESET with no event a TICK returns 0 (R131). -/
theorem test_step_tick :
    ((after (step (State.reset.withFetchWord 26 0x2000000))).map (fun t => t.outputs)) = some [0] := by decide +kernel
theorem test_step_reset :
    ((after (step { duplicates with pending := [.reset, .command 0] })).map (fun t => (t.voices, t.pending))) =
      some (List.replicate 8 Voice.reset, [.command 0]) := by decide +kernel
theorem test_memory_canonical : ((Mem.write [] 3 5).write 1 2).write 3 0 = [(1, 2)] := by decide +kernel
theorem test_decodeTableWord : decodeTableWord 26 0x1B0027F = some (.ccSustain 0 127) := by decide

/-! ### Witnesses: for each statement a concrete state and operands that meet its hypotheses -/

theorem ready (c : Cfg) (v : Voice) (k : Control) (hx : c.num = .exact) (hl : c.legal = true)
    (h : cutoffInSpec c k = true) : (mk c v k).TickReady := ⟨hx, hl, h⟩

theorem readyT (v : Voice) (k : Control) (h : cutoffInSpec cfgT k = true) : (mk cfgT v k).TickReady :=
  ready cfgT v k rfl cfgT_legal h

theorem witness_DecodeOfEncodeIsIdentity :
    StatusCodes.midi.distinct = true ∧ StatusCodes.distinct ⟨1, 2, 3⟩ = true ∧
    [Instr.noteOn 15 127 127, .ccIgn0 0 8 0, .ccIgn0 0 15 0, .ccIgn1 0 16 0, .ccIgn1 0 31 0, .ccIgn2 0 32 0,
      .ccIgn2 0 63 0, .ccIgn3 0 64 0, .ccIgn3 0 127 0, .evtIgn0 7 0, .evtIgn1 0xA 0, .evtIgn2 0xD 0,
      .evtIgn3 0xE 0].all (fun i => i.wellFormed StatusCodes.midi) = true := by decide

theorem witness_StepRunsTheDecodedCommand :
    ({ mk cfgT Voice.reset ctl with pending := [.command 0x1903C64, .reset] } : State).pending =
      .command 0x1903C64 :: [.reset] ∧ (mk cfgT Voice.reset ctl).cfg.legal = true := ⟨rfl, cfgT_legal⟩

theorem witness_IdleStepChangesNothing : State.reset.pending = [] := rfl

theorem witness_ResetGivesEveryRegisterItsResetValue :
    ({ duplicates with pending := [.reset] } : State).pending = .reset :: [] ∧
    ({ duplicates with pending := [.reset] } : State).cfg.legal = true := ⟨rfl, cfgT_legal⟩

/-- Each of the two inequalities, broken at its boundary. -/
theorem witness_ChorusParametersOutsideTheSpecAreRefused :
    (NumSys.exact.lt (NumSys.exact.ofInt 0) (NumSys.exact.sub 3 3) = false) ∧
    (NumSys.exact.lt (NumSys.exact.add (NumSys.exact.add 3 1) (NumSys.exact.ofInt 1)) (NumSys.exact.ofInt 5) = false) ∧
    (after (step { State.resetWith { cfgT with chDepth := 3 } with pending := [.reset] }) = none) ∧
    (after (step { State.resetWith { cfgT with chLen := 5 } with pending := [.reset] }) = none) := by decide +kernel

/-- A legal configuration with a transaction pending goes on; one with a sample rate of 0, and one with two equal
status codes, are refused. -/
theorem witness_ExactlyTheConfigurationsOutsideTheSpecAreRefused :
    (after (step { State.resetWith cfgT with pending := [.reset] })).isSome = true ∧
    (after (step { State.resetWith { cfgT with sampleRate := 0 } with pending := [.reset] }) = none) ∧
    (after (step { State.resetWith { cfgT with codes := ⟨8, 8, 11⟩ } with pending := [.reset] }) = none) := by
  decide +kernel

theorem witness_NoTransactionWritesTheConfiguration :
    ∃ t, exec .nop duplicates = .next t ∧ step duplicates = .next t := ⟨duplicates, rfl, rfl⟩

/-- `cutoff` at both ends of its open range. -/
theorem witness_TickRefuses_cutoff :
    cutoffInSpec cfgT { ctl with cutoff := 0 } = false ∧ cutoffInSpec cfgT { ctl with cutoff := 1 } = false := by
  decide +kernel

/-- A table of size 0 has no phase in range. -/
theorem witness_TickRefuses_phase :
    cutoffInSpec { cfgT with tableSize := 0 } ctl = true ∧
    tickPhasesInRange (mk { cfgT with tableSize := 0 } Voice.reset ctl) = false := by
  refine ⟨by decide +kernel, ?_⟩
  have h : phaseInRange { cfgT with tableSize := 0 } (phaseAdvance { cfgT with tableSize := 0 } 0 0) = false := by
    simp [phaseInRange, phaseAdvance]
  have hv := voiceStep_oscPhase { cfgT with tableSize := 0 } ctl Voice.reset
  simp only [tickPhasesInRange, tickVoices, mk, List.map_cons, List.all_cons, resetWith_cfg]
  rw [hv, show Voice.reset.oscPhase = 0 from rfl, show Voice.reset.freq = 0 from rfl, h]
  simp

theorem witness_UnrecognisedEventsAreIgnored :
    opField 0x1A00864 = 1 ∧ catField 0x1A00864 ≠ 0x8 ∧ catField 0x1A00864 ≠ 0x9 ∧ catField 0x1A00864 ≠ 0xB := by
  decide

theorem witness_NoteOnTakesTheFirstFreeVoice :
    cfgT.pitchFreq[(67 : Data7).toNat]? = some (67 / 16) ∧ duplicates.voices[3]? = some Voice.reset ∧
    Voice.reset.gate = false ∧ ∀ u : Fin 3, (duplicates.voices[u.val]?).any (fun y => y.gate) = true := by
  decide +kernel

theorem witness_NoteOnWithoutFreeVoiceIsDropped :
    ∀ x ∈ ({ duplicates with voices := List.replicate 8 { Voice.reset with gate := true } } : State).voices,
      x.gate = true := by
  decide +kernel

theorem witness_NoteOffReleasesEveryMatch :
    duplicates.voices[0]? = some { Voice.reset with gate := true, pitch := 60 } ∧
    ∀ x ∈ duplicates.voices, x.gate = true → x.pitch ≠ 9 := by decide +kernel

theorem witness_PoolOverflowKeepsTheFirstNotes :
    (∀ x ∈ State.reset.voices, x.gate = false) ∧
    ([(0, 4, 64), (1, 8, 64), (2, 12, 64), (3, 16, 64), (4, 20, 64), (5, 24, 64), (6, 28, 64), (7, 32, 64),
      (15, 36, 64)] : List (Nibble × Data7 × Data7)).length = State.reset.voices.length + 1 ∧
    State.reset.voices[7]? = some Voice.reset ∧ Cfg.reset.pitchFreq[(32 : Data7).toNat]? = some 2 := by decide +kernel

theorem witness_EnvelopeTimesComeFromTheTable :
    Cfg.reset.ccTime[(127 : Data7).toNat]? = some (Cfg.reset.ccTime.getD 127 0) ∧ Cfg.reset.num = .exact ∧
    Cfg.reset.legal = true ∧ Cfg.reset.hardwareValues = true := by decide +kernel

theorem witness_OscmixWeightsSumToOne : State.reset.cfg.num = .exact ∧ 2 ≤ State.reset.cfg.nwaves := by decide

theorem witness_TickCompletesAndLeavesNotesAndControls : State.reset.TickReady :=
  ⟨rfl, cfgReset_legal, by decide +kernel⟩

theorem witness_PipelineOrderIsFixed :
    (mk cfgT Voice.reset ctl).TickRuns ∧ Mem.wf (mk cfgT Voice.reset ctl).chorus.buf ∧
    Mem.wf (mk cfgT Voice.reset ctl).delay.buf ∧ 0 < (mk cfgT Voice.reset ctl).cfg.dlOffset :=
  ⟨(readyT _ _ (by decide +kernel)).runs, by decide +kernel, by decide +kernel, by decide⟩

/-- With the delay on; with the delay off. -/
theorem witness_TickWritesOneElementOfEachRing :
    (mk cfgT Voice.reset ctl).TickRuns ∧ (mk cfgPlain Voice.reset ctl).TickRuns ∧ cfgPlain.dlOffset = 0 :=
  ⟨(readyT _ _ (by decide +kernel)).runs, (ready cfgPlain _ _ rfl cfgPlain_legal (by decide +kernel)).runs, rfl⟩

theorem witness_SilenceLasts : State.reset.TickReady ∧ State.reset.Silent :=
  ⟨witness_TickCompletesAndLeavesNotesAndControls, by decide +kernel, rfl, rfl⟩

theorem witness_FirstSampleOfANoteFromReset :
    Cfg.reset.num = .exact ∧ Cfg.reset.legal = true ∧ Cfg.reset.pitchFreq[(60 : Data7).toNat]? = some (60 / 16) ∧
    Cfg.reset.wt[bandSelect Cfg.reset (60 / 16)]? = some (bandTables Cfg.reset (bandSelect Cfg.reset (60 / 16))) ∧
    (bandTables Cfg.reset (bandSelect Cfg.reset (60 / 16)))[0]? = some ([0, 1, 0, -1] : List NumVal) := by decide +kernel

theorem witness_OscillatorPhaseAdvancesModuloTheTable :
    (mk cfgT { Voice.reset with oscPhase := 15 / 4 } ctl).TickReady ∧ InTable cfgT (15 / 4) ∧
    (mk cfgT { Voice.reset with oscPhase := 15 / 4 } ctl).voices[0]? = some { Voice.reset with oscPhase := 15 / 4 } ∧
    Voice.reset.freq = 0 :=
  ⟨readyT _ _ (by decide +kernel), ⟨by decide +kernel, by decide +kernel⟩, rfl, rfl⟩

/-- R65 on T: a frequency above the sample rate, and a start outside the table; then frequencies that add up to a whole
table. -/
theorem witness_RepeatedOscillatorStepsKeepThePhaseInTheTable :
    cfgT.num = .exact ∧ cfgT.legal = true ∧
    oscPhases cfgT ctl { Voice.reset with oscPhase := 19 / 4 } [9, 0] = [7 / 4, 7 / 4] ∧
    InTable cfgT (3 / 4) ∧ ([3, 1] : List NumVal).sum = (1 : Nat) * cfgT.sampleRate ∧
    oscPhases cfgT ctl { Voice.reset with oscPhase := 3 / 4 } [3, 1] = [15 / 4, 3 / 4] :=
  ⟨rfl, cfgT_legal, by decide +kernel, ⟨by decide +kernel, by decide +kernel⟩, by decide +kernel, by decide +kernel⟩

theorem witness_PhaseAdvancesAddUp : cfgT.num = .exact ∧ cfgT.legal = true ∧ InTable cfgT 0 ∧ InTable cfgT (15 / 4) :=
  ⟨rfl, cfgT_legal, ⟨by decide +kernel, by decide +kernel⟩, ⟨by decide +kernel, by decide +kernel⟩⟩

/-- The last element, whose neighbour wraps; and a whole phase. -/
theorem witness_TableReadInterpolatesItsNeighbours :
    InTable cfgT (15 / 4) ∧ ([0, 1, 0, -1] : List NumVal)[⌊(15 / 4 : Rat)⌋.toNat]? = some (-1) ∧
    ([0, 1, 0, -1] : List NumVal)[(⌊(15 / 4 : Rat)⌋.toNat + 1) % cfgT.tableSize]? = some 0 ∧
    InTable cfgT 3 ∧ ((⌊(3 : Rat)⌋ : Int) : Rat) = 3 :=
  ⟨⟨by decide +kernel, by decide +kernel⟩, by decide +kernel, by decide +kernel,
    ⟨by decide +kernel, by decide +kernel⟩, by decide +kernel⟩

theorem witness_BandIsTheNumberOfThresholdsReached :
    cfgBands.num = .exact ∧ cfgBands.legal = true ∧ cfgBands.bandThresh[0]? = some 1 := ⟨rfl, cfgBands_legal, rfl⟩

theorem witness_OscillatorSumsItsWaves :
    cfgBands.num = .exact ∧ cfgBands.legal = true ∧ ctl.oscmix.length = cfgBands.nwaves := ⟨rfl, cfgBands_legal, rfl⟩

theorem witness_IdleEnvelopeStaysAtZero :
    (mk cfgT Voice.reset ctl).TickRuns ∧ (mk cfgT Voice.reset ctl).voices[0]? = some Voice.reset ∧
    Voice.reset.envStage = .idle ∧ Voice.reset.gate = Voice.reset.envGate :=
  ⟨(readyT _ _ (by decide +kernel)).runs, rfl, rfl, rfl⟩

/-- A note just begun, in an idle voice and in a releasing one. -/
def begun : Voice := { Voice.reset with gate := true, envStage := .release, envAtt := 1 / 2, envLast := 1 }

/-- `attack` above 0; at 0 with `decay` 0; at 0 with `decay` above 0. -/
theorem witness_RisingEdgeStartsFromTheLastOutput :
    (mk cfgT begun (adsr 1 1 1 1)).TickReady ∧ (mk cfgT begun (adsr 0 0 1 1)).TickReady ∧
    (mk cfgT begun (adsr 0 1 1 1)).TickReady ∧ (mk cfgT begun (adsr 1 1 1 1)).voices[0]? = some begun ∧
    begun.gate = true ∧ begun.envGate = false :=
  ⟨readyT _ _ (by decide +kernel), readyT _ _ (by decide +kernel), readyT _ _ (by decide +kernel), rfl, rfl, rfl⟩

/-- A voice in Attack, `t` seconds in. -/
def rising (t : NumVal) : Voice := { Voice.reset with gate := true, envGate := true, envStage := .attack, envTime := t }

theorem witness_AttackIsALinearRamp :
    (mk cfgT (rising (3 / 4)) (adsr 1 1 1 1)).TickReady ∧ (rising (3 / 4)).gate = true ∧
    (rising (3 / 4)).envGate = true ∧ (rising (3 / 4)).envStage = .attack ∧
    (rising (3 / 4)).envTime < (adsr 1 1 1 1).attack ∧ 0 < (adsr 1 1 1 1).attack ∧ (rising (3 / 4)).envStart = 0 :=
  ⟨readyT _ _ (by decide +kernel), rfl, rfl, rfl, by decide +kernel, by decide +kernel, rfl⟩

/-- The timer at `attack`, with `decay` above 0 and at 0; below it; `attack` at 0. V3a call 4 gives the output 1 and
stage DecaySustain. -/
theorem witness_AttackEndsWhenTheTimerReachesIt :
    (mk cfgT (rising 1) (adsr 1 1 (1 / 2) 1)).TickRuns ∧ NumSys.exact.le 1 (rising 1).envTime = true ∧
    NumSys.exact.lt 0 1 = true ∧ (mk cfgT (rising 1) (adsr 1 0 (1 / 2) 1)).TickRuns ∧ NumSys.exact.lt 0 0 = false ∧
    (mk cfgT (rising (3 / 4)) (adsr 1 1 1 1)).TickRuns ∧ NumSys.exact.le 1 (rising (3 / 4)).envTime = false ∧
    NumSys.exact.le 1 0 = false ∧ (mk cfgT begun (adsr 0 1 1 1)).TickRuns ∧ NumSys.exact.le 0 0 = true :=
  ⟨(readyT _ _ (by decide +kernel)).runs, by decide +kernel, by decide +kernel,
    (readyT _ _ (by decide +kernel)).runs, by decide +kernel, (readyT _ _ (by decide +kernel)).runs,
    by decide +kernel, by decide +kernel, (readyT _ _ (by decide +kernel)).runs, by decide +kernel⟩

theorem test_envStep_attackEnds :
    ((envStep cfgT (adsr 1 1 (1 / 2) 1) true (rising 1)).2, (envStep cfgT (adsr 1 1 (1 / 2) 1) true (rising 1)).1.envStage)
      = (1, .decaySustain) := by decide +kernel

/-- A held voice, `t` seconds after its edge. -/
def held (t : NumVal) : Voice :=
  { Voice.reset with gate := true, envGate := true, envStage := .decaySustain, envTime := t, envAtt := 1 }

/-- `decay` above 0, before and at its end; `decay` at 0. -/
theorem witness_DecaySustainDecaysToSustain :
    (mk cfgT (held (3 / 2)) (adsr 1 1 (1 / 2) 1)).TickReady ∧ (mk cfgT (held 2) (adsr 1 1 (1 / 2) 1)).TickReady ∧
    (mk cfgT (held 2) (adsr 1 0 (1 / 2) 1)).TickReady ∧ (adsr 1 1 (1 / 2) 1).attack + (adsr 1 1 (1 / 2) 1).decay ≤ 2 ∧
    (held 2).gate = true ∧ (held 2).envGate = true ∧ (held 2).envStage = .decaySustain :=
  ⟨readyT _ _ (by decide +kernel), readyT _ _ (by decide +kernel), readyT _ _ (by decide +kernel),
    by decide +kernel, rfl, rfl, rfl⟩

/-- A voice in Release, `t` seconds in. -/
def falling (t : NumVal) : Voice :=
  { Voice.reset with envStage := .release, envRtime := t, envLast := 1 / 2, envAtt := 1 / 4 }

/-- The falling edge, the last sample of a release, and `release` at 0. -/
theorem witness_ReleaseFallsFromTheLastOutput :
    (mk cfgT { held 2 with gate := false } (adsr 1 1 1 1)).TickRuns ∧ (mk cfgT (falling 1) (adsr 1 1 1 1)).TickRuns ∧
    (mk cfgT (falling 0) (adsr 1 1 1 0)).TickRuns ∧ (falling 1).gate = false ∧ (falling 1).envStage = .release ∧
    0 < (adsr 1 1 1 1).release ∧ (adsr 1 1 1 1).release ≤ (falling 1).envRtime ∧ 0 ≤ (falling 1).envLast :=
  ⟨(readyT _ _ (by decide +kernel)).runs, (readyT _ _ (by decide +kernel)).runs,
    (readyT _ _ (by decide +kernel)).runs, rfl, rfl, by decide +kernel, by decide +kernel, by decide +kernel⟩

/-- The output at 0 and above it. -/
theorem witness_ReleaseReturnsToIdleAtZero :
    (mk cfgT (falling 1) (adsr 1 1 1 1)).TickRuns ∧ (envStep cfgT (adsr 1 1 1 1) false (falling 1)).2 = 0 ∧
    (mk cfgT (falling (1 / 2)) (adsr 1 1 1 1)).TickRuns ∧
    (envStep cfgT (adsr 1 1 1 1) false (falling (1 / 2))).2 = 1 / 4 :=
  ⟨(readyT _ _ (by decide +kernel)).runs, by decide +kernel, (readyT _ _ (by decide +kernel)).runs,
    by decide +kernel⟩

/-- Two Attack samples, and two Release samples. -/
theorem witness_EnvelopeIsMonotoneInAttackAndRelease :
    (mk cfgT (rising 0) (adsr 1 1 1 1)).TickReady ∧
    (((after (exec .tick (mk cfgT (rising 0) (adsr 1 1 1 1)))).bind (fun t => after (exec .tick t))).bind
      (fun u => u.voices[0]?)).map (fun z => z.envStage) = some .attack ∧
    (mk cfgT (falling 0) (adsr 1 1 1 1)).TickReady ∧
    ((after (exec .tick (mk cfgT (falling 0) (adsr 1 1 1 1)))).bind
      (fun t => t.voices[0]?)).map (fun y => y.envStage) = some .release ∧ InUnit (rising 0).envStart :=
  ⟨readyT _ _ (by decide +kernel), by decide +kernel, readyT _ _ (by decide +kernel), by decide +kernel,
    ⟨by decide +kernel, by decide +kernel⟩⟩

/-- NOTE_OFF and NOTE_ON on one voice between two TICKs (R78 (b)). -/
theorem witness_EnvelopeSeesNotesThroughTheGateOnly :
    (mk cfgT { held 2 with pitch := 60 } ctl).TickReady ∧
    ((after (execAll [.noteOff 0 60, .noteOn 0 67 1] (mk cfgT { held 2 with pitch := 60 } ctl))).bind
      (fun u => u.voices[0]?)) = some { held 2 with pitch := 67, freq := 67 / 16, vel := 1 } :=
  ⟨readyT _ _ (by decide +kernel), by decide +kernel⟩

theorem witness_FilterRunsTheSixSteps :
    (mk cfgT (held 2) ctl).TickRuns ∧ (mk cfgT (held 2) ctl).cfg.filterEn = true ∧
    (mk cfgT (held 2) ctl).voices[0]? = some (held 2) := ⟨(readyT _ _ (by decide +kernel)).runs, rfl, rfl⟩

theorem witness_FilterOffPassesTheSampleThrough :
    (mk cfgPlain (held 2) ctl).TickRuns ∧ (mk cfgPlain (held 2) ctl).cfg.filterEn = false ∧
    (mk cfgPlain (held 2) ctl).voices[0]? = some (held 2) :=
  ⟨(ready _ _ _ rfl cfgPlain_legal (by decide +kernel)).runs, rfl, rfl⟩

theorem witness_FilterIsPassiveAtZeroResonance :
    cfgT.num = .exact ∧ 0 < ctl.cutoff ∧ ctl.cutoff < 1 ∧ ctl.resonance = 0 ∧ |(-1 : Rat)| ≤ 1 ∧
    |Voice.reset.fltS0| ≤ 1 :=
  ⟨rfl, by decide +kernel, by decide +kernel, rfl, by norm_num, by simp [Voice.reset]⟩

/-- `chorusmix` exactly at the threshold. -/
theorem witness_BypassedChorusReturnsItsInput :
    (mk cfgT (held 2) { ctl with chorusmix := 1 / 100 }).TickRuns ∧
    Mem.wf (mk cfgT (held 2) { ctl with chorusmix := 1 / 100 }).chorus.buf ∧
    NumSys.exact.le (1 / 100) cfgT.chBypass = true :=
  ⟨(readyT _ _ (by decide +kernel)).runs, by decide +kernel, by decide +kernel⟩

theorem shape (v : Voice) : (mk cfgT v { ctl with chorusmix := 1 }).Shape :=
  ⟨rfl, rfl, rfl, show 0 < 8 by decide, Mem.Within_nil _, show 0 < 3 by decide, show 0 ≤ 2 by decide, Mem.Within_nil _⟩

theorem witness_ActiveChorusCrossfadesTheMeanOfItsTaps :
    (mk cfgT (held 2) { ctl with chorusmix := 1 }).TickReady ∧
    (mk cfgT (held 2) { ctl with chorusmix := 1 }).Shape ∧ cfgT.chBypass < 1 :=
  ⟨readyT _ _ (by decide +kernel), shape _, by decide +kernel⟩

theorem witness_TapOffsetsStayInsideTheRing :
    cfgT.num = .exact ∧ cfgT.legal = true ∧ InTable cfgT 1 ∧ InTable cfgT 3 :=
  ⟨rfl, cfgT_legal, ⟨by decide +kernel, by decide +kernel⟩, ⟨by decide +kernel, by decide +kernel⟩⟩

/-- The ring filling, the ring full, and the bypass. -/
theorem witness_DelayPushesThenPops :
    (mk cfgT (held 2) ctl).TickRuns ∧ Mem.wf (mk cfgT (held 2) ctl).delay.buf ∧
    (mk cfgT (held 2) ctl).delay.len + 1 ≤ cfgT.dlOffset ∧
    ({ mk cfgT (held 2) ctl with delay := { head := 1, len := 2, buf := [] } } : State).TickRuns ∧
    cfgT.dlOffset < 2 + 1 ∧ (mk cfgPlain (held 2) ctl).TickRuns ∧ cfgPlain.dlOffset = 0 :=
  ⟨(readyT _ _ (by decide +kernel)).runs, by decide +kernel, by decide,
    State.TickReady.runs ⟨rfl, cfgT_legal, by decide +kernel⟩, by decide,
    (ready _ _ _ rfl cfgPlain_legal (by decide +kernel)).runs, rfl⟩

/-- A full ring, and one with a place left. -/
theorem witness_DelayRingIsAFifo :
    0 < cfgT.dlOffset ∧ cfgT.dlOffset + 1 ≤ cfgT.dlCap ∧ 2 < cfgT.dlCap ∧ 2 ≤ cfgT.dlOffset ∧ 1 ≤ cfgT.dlOffset ∧
    Mem.wf [(0, 4), (2, 3)] := by decide +kernel

/-- An output before the tap sounds, and one that has it. -/
theorem witness_DelayedOutputIsTheShiftedInput :
    cfgT.num = .exact ∧ 0 < cfgT.dlOffset ∧ cfgT.dlOffset + 1 ≤ cfgT.dlCap ∧ 1 < cfgT.dlOffset ∧
    3 = 1 + cfgT.dlOffset ∧ ([1, 2, 3, 4, 5] : List NumVal)[3]? = some 4 ∧ ([1, 2, 3, 4, 5] : List NumVal)[1]? = some 2 := by
  decide +kernel

theorem witness_ResetMeetsTheInvariantAndIsSilent :
    Cfg.reset.num = .exact ∧ Cfg.reset.legal = true ∧ cfgPlain.legal = true := ⟨rfl, cfgReset_legal, cfgPlain_legal⟩

/-- A sounding state with a TICK pending that meets the invariant. -/
def sounding : State := { mk cfgT (held 2) { ctl with chorusmix := 1 } with pending := [.command 0x2000000] }

theorem held_legal : (held 2).Legal cfgT :=
  ⟨by decide +kernel, ⟨by decide +kernel, by decide +kernel⟩, by decide +kernel, by decide +kernel,
    ⟨by decide +kernel, by decide +kernel⟩, ⟨by decide +kernel, by decide +kernel⟩,
    ⟨by decide +kernel, by decide +kernel⟩, by decide, by decide, by decide⟩

theorem silent_legal : Voice.reset.Legal cfgT :=
  ⟨by decide +kernel, ⟨by decide +kernel, by decide +kernel⟩, by decide +kernel, by decide +kernel,
    ⟨by decide +kernel, by decide +kernel⟩, ⟨by decide +kernel, by decide +kernel⟩,
    ⟨by decide +kernel, by decide +kernel⟩, by decide, fun _ => rfl, by decide⟩

theorem witness_StepKeepsTheInvariant : sounding.Inv ∧ (after (step sounding)).isSome = true := by
  refine ⟨⟨rfl, cfgT_legal, ?_, ?_, ?_, ?_⟩, by decide +kernel⟩
  · have h := shape (held 2)
    exact ⟨h.voices, h.oscmix, h.lfoPhase, h.wc, h.chBuf, h.head, h.len, h.dlBuf⟩
  · intro v hv
    rcases List.mem_cons.mp hv with rfl | hv
    · exact held_legal
    · rw [List.eq_of_mem_replicate hv]; exact silent_legal
  · refine ⟨by decide +kernel, by decide +kernel, ⟨by decide +kernel, by decide +kernel⟩, by decide +kernel, rfl, ?_,
      ⟨by decide +kernel, by decide +kernel⟩, ⟨by decide +kernel, by decide +kernel⟩,
      ⟨by decide +kernel, by decide +kernel⟩⟩
    show ∀ m ∈ ([1, 0, 0] : List NumVal), InUnit m
    intro m hm
    simp only [List.mem_cons, List.not_mem_nil, or_false] at hm
    rcases hm with rfl | rfl | rfl <;> constructor <;> norm_num
  · intro p hp
    rw [List.eq_of_mem_replicate hp]
    exact ⟨by decide +kernel, by decide +kernel⟩

theorem witness_StepKeepsTheShape : sounding.Shape ∧ (after (step sounding)).isSome = true :=
  ⟨witness_StepKeepsTheInvariant.1.shape, witness_StepKeepsTheInvariant.2⟩

theorem witness_EveryIssuedTransactionCompletes : sounding.Inv ∧ sounding.pending.length = 1 :=
  ⟨witness_StepKeepsTheInvariant.1, rfl⟩

end Sys2Proof.Tests
end

/-! PROOFS. Which configurations a step refuses (spec 00_scope.md R6, R7; 93_implementation_defined.md U3, U7). Each
Boolean check of Machine/Launch.lean is first said as the rows of R6's table it decides; the checks together are
`Admitted`, and `step` refuses by configOutOfSpec exactly where they fail. -/

namespace Sys2Proof

/-- Adjacent thresholds in order, said by index (R6). -/
theorem Cfg.ascending_iff (N : NumSys) (xs : List NumVal) :
    Cfg.ascending N xs = true ↔
      ∀ (i : Nat) (a b : NumVal), xs[i]? = some a → xs[i + 1]? = some b → N.lt a b = true := by
  induction xs with
  | nil => simp [Cfg.ascending]
  | cons x xs ih =>
    cases xs with
    | nil => simp [Cfg.ascending]
    | cons y ys =>
      rw [Cfg.ascending, Bool.and_eq_true, ih]
      constructor
      · rintro ⟨hxy, htail⟩ i a b ha hb
        cases i with
        | zero => simp_all
        | succ i => exact htail i a b (by simpa using ha) (by simpa using hb)
      · intro h
        exact ⟨h 0 x y rfl rfl, fun i a b ha hb => h (i + 1) a b (by simpa using ha) (by simpa using hb)⟩

/-- What holds of every sample of `WT[0][0]`; a table that is missing has no samples (R64). -/
theorem Cfg.forall_mem_lfoTable (c : Cfg) (P : NumVal → Prop) :
    (∀ x ∈ c.lfoTable, P x) ↔
      ∀ (band : List (List NumVal)) (table : List NumVal), c.wt[0]? = some band → band[0]? = some table →
        ∀ x ∈ table, P x := by
  constructor
  · intro h band table hband htable x hx
    exact h x (by simpa [Cfg.lfoTable, hband, htable] using hx)
  · intro h x hx
    cases hband : c.wt[0]? with
    | none => simp [Cfg.lfoTable, hband] at hx
    | some band =>
      cases htable : band[0]? with
      | none => simp [Cfg.lfoTable, hband, htable] at hx
      | some table => exact h band table hband htable x (by simpa [Cfg.lfoTable, hband, htable] using hx)

/-- The first time, in a table that has one (R6). -/
theorem Cfg.ccTimeZero_iff {c : Cfg} (h : c.ccTime.length = 128) :
    c.num.eq (c.ccTime.getD 0 Config.absentElement) (c.num.ofInt 0) = true ↔
      ∀ x, c.ccTime[0]? = some x → c.num.eq x (c.num.ofInt 0) = true := by
  cases hc : c.ccTime with
  | nil => simp [hc] at h
  | cons x xs => simp

/-! The checks of `Cfg.legal`, each as the constraints it decides. -/

theorem Cfg.sizesLegal_iff (c : Cfg) :
    c.sizesLegal = true ↔
      c.num.lt (c.num.ofInt 0) c.sampleRate = true ∧ 1 ≤ c.nvoices ∧ 2 ≤ c.nwaves ∧ 1 ≤ c.nbands ∧
        1 ≤ c.tableSize := by
  simp only [Cfg.sizesLegal, Bool.and_eq_true, decide_eq_true_eq, and_assoc]

theorem Cfg.bandsLegal_iff (c : Cfg) :
    c.bandsLegal = true ↔
      c.bandThresh.length + 1 = c.nbands ∧
      (∀ (i : Nat) (a b : NumVal), c.bandThresh[i]? = some a → c.bandThresh[i + 1]? = some b →
        c.num.lt a b = true) ∧
      ∀ a ∈ c.bandThresh, c.num.lt (c.num.ofInt 0) a = true := by
  simp only [Cfg.bandsLegal, Bool.and_eq_true, decide_eq_true_eq, List.all_eq_true, Cfg.ascending_iff, and_assoc]

theorem Cfg.wavesLegal_iff (c : Cfg) :
    c.wavesLegal = true ↔
      c.wt.length = c.nbands ∧
      (∀ band ∈ c.wt, band.length = c.nwaves ∧ ∀ table ∈ band, table.length = c.tableSize) ∧
      ∀ (band : List (List NumVal)) (table : List NumVal), c.wt[0]? = some band → band[0]? = some table →
        ∀ x ∈ table, c.num.le (c.num.ofInt (-1)) x = true ∧ c.num.le x (c.num.ofInt 1) = true := by
  simp only [Cfg.wavesLegal, Bool.and_eq_true, decide_eq_true_eq, List.all_eq_true, Cfg.forall_mem_lfoTable, and_assoc]

theorem Cfg.romsLegal_iff (c : Cfg) :
    c.romsLegal = true ↔
      c.pitchFreq.length = 128 ∧ (∀ f ∈ c.pitchFreq, c.num.le (c.num.ofInt 0) f = true) ∧
      c.ccTime.length = 128 ∧ (∀ x ∈ c.ccTime, c.num.le (c.num.ofInt 0) x = true) ∧
      ∀ x, c.ccTime[0]? = some x → c.num.eq x (c.num.ofInt 0) = true := by
  simp only [Cfg.romsLegal, Bool.and_eq_true, decide_eq_true_eq, List.all_eq_true, and_assoc]
  refine and_congr_right fun _ => and_congr_right fun _ => and_congr_right fun hlen => and_congr_right fun _ => ?_
  exact Cfg.ccTimeZero_iff hlen

theorem Cfg.chorusLegal_iff (c : Cfg) :
    c.chorusLegal = true ↔
      1 ≤ c.chN ∧ 3 ≤ c.chLen ∧ c.num.le (c.num.ofInt 0) c.chDepth = true ∧
      c.num.le (c.num.ofInt 0) c.chRate = true ∧ c.chMult.length = c.chN ∧ (∀ m ∈ c.chMult, 1 ≤ m) ∧
      c.num.le (c.num.ofInt 0) c.chBypass = true ∧
      c.num.lt (c.num.ofInt 0) (c.num.sub c.chBase c.chDepth) = true ∧
      c.num.lt (c.num.add (c.num.add c.chBase c.chDepth) (c.num.ofInt 1)) (c.num.ofInt c.chLen) = true := by
  simp only [Cfg.chorusLegal, Bool.and_eq_true, decide_eq_true_eq, List.all_eq_true, and_assoc]

theorem Cfg.legal_iff (c : Cfg) :
    c.legal = true ↔
      c.sizesLegal = true ∧ c.bandsLegal = true ∧ c.wavesLegal = true ∧ c.romsLegal = true ∧ c.chorusLegal = true ∧
        c.dlOffset + 1 ≤ c.dlCap ∧ c.codes.distinct = true := by
  simp only [Cfg.legal, Cfg.delayLegal, Bool.and_eq_true, decide_eq_true_eq, and_assoc]

end Sys2Proof

namespace Sys2Proof.Machine

theorem Admitted.of_legal {c : Cfg} (h : c.legal = true) : Admitted c := by
  obtain ⟨hsizes, hbands, hwaves, hroms, hchorus, hdl, hcodes⟩ := (Cfg.legal_iff c).mp h
  obtain ⟨hrate, hvoices, hnwaves, hnbands, htable⟩ := (Cfg.sizesLegal_iff c).mp hsizes
  obtain ⟨hthresh, hasc, hpos⟩ := (Cfg.bandsLegal_iff c).mp hbands
  obtain ⟨hwt, hband, hlfo⟩ := (Cfg.wavesLegal_iff c).mp hwaves
  obtain ⟨hpitches, hfreq, htimes, htime, hzero⟩ := (Cfg.romsLegal_iff c).mp hroms
  obtain ⟨hchN, hchLen, hdepth, hchRate, hmults, hmult, hbypass, hnear, hfar⟩ := (Cfg.chorusLegal_iff c).mp hchorus
  obtain ⟨hoffOn, hoffCc, honCc⟩ := (StatusCodes.distinct_iff _).mp hcodes
  exact {
    sampleRate := hrate, nvoices := hvoices, nwaves := hnwaves, nbands := hnbands, thresholds := by omega
    threshAscending := hasc, threshPositive := hpos, tableSize := htable, bands := hwt
    waves := fun b hb => (hband b hb).1, samples := fun b hb => (hband b hb).2, lfoTable := hlfo
    pitches := hpitches, pitchFreq := hfreq, times := htimes, ccTime := htime, ccTimeZero := hzero
    chN := hchN, chLen := hchLen, chDepth := hdepth, chRate := hchRate, multiples := hmults, chMult := hmult
    chBypass := hbypass, chNear := hnear, chFar := hfar, dlCap := hdl
    codesOffOn := hoffOn, codesOffCc := hoffCc, codesOnCc := honCc }

theorem Admitted.legal {c : Cfg} (a : Admitted c) : c.legal = true := by
  have hsizes := (Cfg.sizesLegal_iff c).mpr ⟨a.sampleRate, a.nvoices, a.nwaves, a.nbands, a.tableSize⟩
  have hthresh : c.bandThresh.length + 1 = c.nbands := by have := a.thresholds; have := a.nbands; omega
  have hbands := (Cfg.bandsLegal_iff c).mpr ⟨hthresh, a.threshAscending, a.threshPositive⟩
  have hwaves := (Cfg.wavesLegal_iff c).mpr ⟨a.bands, fun b hb => ⟨a.waves b hb, a.samples b hb⟩, a.lfoTable⟩
  have hroms := (Cfg.romsLegal_iff c).mpr ⟨a.pitches, a.pitchFreq, a.times, a.ccTime, a.ccTimeZero⟩
  have hchorus := (Cfg.chorusLegal_iff c).mpr
    ⟨a.chN, a.chLen, a.chDepth, a.chRate, a.multiples, a.chMult, a.chBypass, a.chNear, a.chFar⟩
  have hcodes := (StatusCodes.distinct_iff _).mpr ⟨a.codesOffOn, a.codesOffCc, a.codesOnCc⟩
  exact (Cfg.legal_iff c).mpr ⟨hsizes, hbands, hwaves, hroms, hchorus, a.dlCap, hcodes⟩

/-- The check that `step` runs decides R6's table and R7. -/
theorem admitted_iff_legal {c : Cfg} : Admitted c ↔ c.legal = true := ⟨Admitted.legal, Admitted.of_legal⟩

/-- Only `step` itself looks at `CFG` as a whole: no command is refused for it. -/
theorem exec_ne_configOutOfSpec (i : Instr) (s : State) : exec i s ≠ .refused .configOutOfSpec := by
  by_cases hi : i = .tick
  · subst hi
    obtain ⟨-, h⟩ | ⟨-, h⟩ | ⟨-, -, h⟩ := exec_tick_cases s <;> simp [h]
  · obtain ⟨vs, k, h⟩ := exec_event hi s
    simp [h]

/-- A step refuses the configuration exactly where a transaction is due and the check fails (R7, log 4). -/
theorem step_configOutOfSpec_iff (s : State) :
    step s = .refused .configOutOfSpec ↔ s.pending ≠ [] ∧ s.cfg.legal = false := by
  obtain ⟨hp, h⟩ | ⟨hp, hl, h⟩ | ⟨_, -, hl, h⟩ | ⟨_, _, -, hl, h⟩ := step_cases s
  · simp [h, hp]
  · simp [h, hp, hl]
  · simp [h, hl]
  · simp [h, hl, exec_ne_configOutOfSpec]

/-- Settles O58: the check that `step` runs is `Admitted`, and no command is refused by that name. -/
theorem exactlyTheConfigurationsOutsideTheSpecAreRefused :
    Obligations.ExactlyTheConfigurationsOutsideTheSpecAreRefused := by
  intro s hp
  rw [step_configOutOfSpec_iff, admitted_iff_legal, Bool.not_eq_true]
  exact and_iff_right hp

/-- Settles O10: a configuration that breaks either inequality of R7 is not admitted. -/
theorem chorusParametersOutsideTheSpecAreRefused : Obligations.ChorusParametersOutsideTheSpecAreRefused := by
  intro s hp hbroken
  refine (exactlyTheConfigurationsOutsideTheSpecAreRefused s hp).mpr fun ha => ?_
  rcases hbroken with hnear | hfar
  · exact Bool.false_ne_true (hnear.symm.trans ha.chNear)
  · exact Bool.false_ne_true (hfar.symm.trans ha.chFar)

end Sys2Proof.Machine

/-! PROOFS. NOTE_ON with a free voice (spec 43_voice_pool.md R90; 10_state.md R21, R103). -/

namespace Sys2Proof.Machine

/-- The frequency of a pitch is its entry of `PITCH_FREQ` (R52, R90). -/
theorem pitchFrequency_of_getElem? {c : Cfg} {p : Data7} {f : NumVal} (h : c.pitchFreq[p.toNat]? = some f) :
    pitchFrequency c p = f := romRead_eq h

/-- NOTE_ON is the scan `allocate` of the voices with the pitch's frequency, and nothing else (R90). -/
theorem exec_noteOn (chan : Nibble) (p vel : Data7) (s : State) :
    exec (.noteOn chan p vel) s =
      .next { s with voices := allocate p (pitchFrequency s.cfg p) vel s.voices } := rfl

/-- Settles O16: the scan passes over the held voices before `v` and writes the note registers of `v`. -/
theorem noteOnTakesTheFirstFreeVoice : Obligations.NoteOnTakesTheFirstFreeVoice := by
  intro s chan p vel f v x hfreq hvoice hfree hheld
  rw [exec_noteOn, pitchFrequency_of_getElem? hfreq, allocate_first hvoice hfree hheld]

end Sys2Proof.Machine

/-! PROOFS. The configuration, with its ROMs, is read only (spec 20_memory.md R46). -/

namespace Sys2Proof.Machine

/-- Idling, RESET and every command end with the configuration they began with (R46). -/
theorem step_cfg {s t : State} (h : step s = .next t) : t.cfg = s.cfg := by
  obtain ⟨-, hs⟩ | ⟨-, -, hs⟩ | ⟨rest, -, -, hs⟩ | ⟨w, rest, -, -, hs⟩ := step_cases s <;> rw [hs] at h
  · cases h; rfl
  · cases h
  · cases h; exact resetTransaction_cfg _
  · exact exec_cfg (s := { s with pending := rest }) h

/-- Settles O11: no command writes the configuration, and so no step does. -/
theorem noTransactionWritesTheConfiguration : Obligations.NoTransactionWritesTheConfiguration :=
  ⟨fun _ _ _ => exec_cfg, fun _ _ => step_cfg⟩

end Sys2Proof.Machine

/-! PROOFS. Events of an unrecognised category (spec 30_encoding.md R55; 43_voice_pool.md R100). -/

namespace Sys2Proof.Machine

/-- The four EVT_IGN commands leave the whole state as it was, pending transactions and outputs included (R55). -/
theorem exec_evtIgn (cat chan : Nibble) (s : State) :
    exec (.evtIgn0 cat chan) s = .next s ∧ exec (.evtIgn1 cat chan) s = .next s ∧
      exec (.evtIgn2 cat chan) s = .next s ∧ exec (.evtIgn3 cat chan) s = .next s := ⟨rfl, rfl, rfl, rfl⟩

/-- The ranges of the EVT_IGN rows cover all categories, so an ignored event changes nothing in any of them (R53). -/
theorem exec_decodeIgnored (cat chan : Nibble) (s : State) : exec (decodeIgnored cat chan) s = .next s := by
  obtain ⟨h0, h1, h2, h3⟩ := exec_evtIgn cat chan s
  unfold decodeIgnored
  split_ifs
  · exact h0
  · exact h1
  · exact h2
  · exact h3

/-- Settles O14: an event of none of the three codes decodes to an ignored event. -/
theorem unrecognisedEventsAreIgnored : Obligations.UnrecognisedEventsAreIgnored := by
  refine ⟨fun k w s hop hoff hon hcc => ?_, exec_evtIgn⟩
  have hign : k.ignores (catField w) = true := (StatusCodes.ignores_iff k).mpr ⟨hoff, hon, hcc⟩
  rw [decode_event hop, decodeEvt_ignored hign, exec_decodeIgnored]

end Sys2Proof.Machine

/-! PROOFS. The phase accumulator over repeated calls (spec 40_oscillator.md R60, R65; decision D14). Advances compose
by adding their frequencies, so each phase that repeated calls of OSC.STEP leave is one advance from the starting phase. -/

namespace Sys2Proof.Machine

variable {c : Cfg}

/-- Two advances in a row are one advance by the sum of the frequencies: the full modulo of the first takes off a whole
number of tables, which the second takes off as well (R60). -/
theorem phaseAdvance_phaseAdvance (hx : c.num = .exact) (hl : c.legal = true) (phase f g : NumVal) :
    phaseAdvance c (phaseAdvance c phase f) g = phaseAdvance c phase (f + g) := by
  have hs := (Cfg.sizes_of_legal hl).tableSize
  have hr := (Cfg.ranges_of_legal hx hl).sampleRate
  have hT : (c.tableSize : Rat) ≠ 0 := Nat.cast_ne_zero.mpr (Nat.one_le_iff_ne_zero.mp hs)
  simp only [phaseAdvance_exact hx hs hr]
  generalize ⌊(phase + (c.tableSize : Rat) * f / c.sampleRate) / (c.tableSize : Rat)⌋ = k
  have hquot :
      (phase + c.tableSize * f / c.sampleRate - c.tableSize * k + c.tableSize * g / c.sampleRate) / c.tableSize =
      (phase + c.tableSize * (f + g) / c.sampleRate) / c.tableSize - k := by
    field_simp
    ring
  rw [hquot, Int.floor_sub_intCast, Int.cast_sub]
  ring

/-- An advance by a whole number of tables returns a phase of the table to itself (R65). -/
theorem phaseAdvance_mul_sampleRate (hx : c.num = .exact) (hl : c.legal = true) {phase : NumVal}
    (h : InTable c phase) (n : Nat) : phaseAdvance c phase ((n : Rat) * c.sampleRate) = phase := by
  have hr := (Cfg.ranges_of_legal hx hl).sampleRate
  have hT : (c.tableSize : Rat) ≠ 0 := (h.1.trans_lt h.2).ne'
  have hinc : (c.tableSize : Rat) * (n * c.sampleRate) / c.sampleRate = c.tableSize * n := by
    rw [← mul_assoc, mul_div_cancel_right₀ _ hr.ne']
  have hquot : (phase + (c.tableSize : Rat) * n) / c.tableSize = phase / c.tableSize + n := by
    rw [add_div, mul_div_cancel_left₀ _ hT]
  rw [phaseAdvance_exact hx (Cfg.sizes_of_legal hl).tableSize hr, hinc, hquot, Int.floor_add_natCast]
  calc phase + c.tableSize * n - c.tableSize * ((⌊phase / (c.tableSize : Rat)⌋ + n : Int) : Rat)
      = phase - c.tableSize * (⌊phase / (c.tableSize : Rat)⌋ : Rat) := by push_cast; ring
    _ = phase := modTable_of_inTable h

/-- A call of OSC.STEP leaves the advanced phase, and the next one starts from it. -/
theorem oscPhases_cons (k : Control) (x : Voice) (f : NumVal) (fs : List NumVal) :
    oscPhases c k x (f :: fs) = phaseAdvance c x.oscPhase f ::
      oscPhases c k { x with freq := f, oscPhase := phaseAdvance c x.oscPhase f } fs := rfl

/-- The phase after call `n` is one advance by the sum of the frequencies up to it. -/
theorem oscPhases_eq_map (hx : c.num = .exact) (hl : c.legal = true) (k : Control) (x : Voice) (fs : List NumVal) :
    oscPhases c k x fs =
      (List.range fs.length).map (fun n => phaseAdvance c x.oscPhase (fs.take (n + 1)).sum) := by
  induction fs generalizing x with
  | nil => rfl
  | cons f fs ih =>
    rw [oscPhases_cons, ih, List.length_cons, List.range_succ_eq_map]
    simp [phaseAdvance_phaseAdvance hx hl, Function.comp_def]

/-- Settles O59: every phase left is one advance from the start, which ends in the table. -/
theorem repeatedOscillatorStepsKeepThePhaseInTheTable :
    Obligations.RepeatedOscillatorStepsKeepThePhaseInTheTable := by
  intro c k x freqs hx hl
  rw [oscPhases_eq_map hx hl]
  refine ⟨by simp, fun p hp => ?_, fun n p hp => ?_⟩
  · obtain ⟨n, -, rfl⟩ := List.mem_map.mp hp
    exact phaseAdvance_inTable hx hl _ _
  · obtain ⟨-, rfl⟩ := List.getElem?_eq_some_iff.mp hp
    rw [List.getElem_map, List.getElem_range]
    refine ⟨rfl, fun tables hsum hstart => ?_⟩
    rw [hsum, phaseAdvance_mul_sampleRate hx hl hstart]

end Sys2Proof.Machine

/-! PROOFS. The LFO and the chorus's taps (spec 40_oscillator.md R64; 44_chorus.md R112; decisions D16, D17). -/

namespace Sys2Proof.Machine

variable {c : Cfg}

/-- `WT[0][0]` exists, and it is the LFO's table (R64, D17). -/
theorem lfoTable_eq_firstTable (hl : c.legal = true) :
    ∃ band, c.wt[0]? = some band ∧ band[0]? = some c.lfoTable := by
  have hz := Cfg.sizes_of_legal hl
  have hwt : 0 < c.wt.length := hz.wt ▸ hz.nbands
  have hband : 0 < c.wt[0].length := by
    rw [(hz.bands _ (List.getElem_mem hwt)).1]
    exact Nat.zero_lt_of_lt hz.nwaves
  exact ⟨c.wt[0], List.getElem?_eq_getElem hwt, by simp [Cfg.lfoTable, List.getD, hwt, hband]⟩

/-- TABLE.READ of a full table interpolates the sample at the phase's floor and the next one, wrapped (R61, D16). -/
theorem tableRead_eq_interpolate (hx : c.num = .exact) {T : List NumVal} (hT : T.length = c.tableSize)
    {phase : NumVal} (h : InTable c phase) :
    ∃ a b, T[⌊phase⌋.toNat]? = some a ∧ T[(⌊phase⌋.toNat + 1) % c.tableSize]? = some b ∧
      tableRead c T phase = a + (phase - (⌊phase⌋ : Rat)) * (b - a) := by
  have hi := floor_toNat_lt h
  have hwrap : (⌊phase⌋.toNat + 1) % c.tableSize < T.length := by rw [hT]; exact Nat.mod_lt _ (Nat.zero_lt_of_lt hi)
  have ha := List.getElem?_eq_getElem (hT ▸ hi)
  have hb := List.getElem?_eq_getElem hwrap
  exact ⟨_, _, ha, hb, by rw [tableRead_exact hx T h, romRead_eq ha, romRead_eq hb]⟩

/-- A read offset lies strictly between 0 and the last element of the ring, by the two inequalities of R7 (R112). -/
theorem tapOffset_bounds (hx : c.num = .exact) (hl : c.legal = true) {phase : NumVal} (h : InTable c phase) :
    0 < tapOffset c phase ∧ tapOffset c phase + 1 < (c.chLen : Rat) := by
  have hr := Cfg.ranges_of_legal hx hl
  obtain ⟨hlow, hhigh⟩ := tapOffset_mem hx hl h
  exact ⟨hr.chLow.trans_le hlow, (add_le_add_left hhigh 1).trans_lt hr.chHigh⟩

/-- Settles O50: the LFO's read is one of a full table in `[-1, 1]`, and R7 bounds the offset it gives. -/
theorem tapOffsetsStayInsideTheRing : Obligations.TapOffsetsStayInsideTheRing := by
  intro c phase hx hl h
  obtain ⟨band, hband, hsine⟩ := lfoTable_eq_firstTable hl
  obtain ⟨a, b, ha, hb, hread⟩ := tableRead_eq_interpolate hx (lfoTable_length hl) h
  obtain ⟨hlow, hhigh⟩ := lfoValue_mem hx hl h
  obtain ⟨hpos, hlast⟩ := tapOffset_bounds hx hl h
  have hfar : ((⌊tapOffset c phase⌋ + 1 : Int) : Rat) < ((c.chLen : Int) : Rat) := by
    push_cast
    linarith [Int.floor_le (tapOffset c phase)]
  exact ⟨⟨band, c.lfoTable, a, b, hband, hsine, ha, hb, rfl, hread⟩, hlow, hhigh, hpos,
    Int.floor_nonneg.mpr hpos.le, Int.cast_lt.mp hfar⟩

end Sys2Proof.Machine

/-! PROOFS. Attack and its end (spec 41_envelope.md R71, R72, R74, R75, R77; decisions D18, D19, D21, D22). A voice that
is in Attack once its edge is done takes, in the same call, the stage that R72 chooses, and that stage's output. -/

namespace Sys2Proof.Machine

variable {c : Cfg} {k : Control}

/-- A gated voice in Attack or on its rising edge: after step 1 it is in Attack, with timer and start of its own or, on
the edge, the timer 0 and the last output (R71). -/
theorem envEdges_attack {v : Voice} (h : v.envGate = true → v.envStage = .attack) :
    envEdges c true v =
      { v with
        envGate := true
        envStage := .attack
        envTime := if v.envGate = true then v.envTime else c.num.ofInt 0
        envStart := if v.envGate = true then v.envStart else v.envAtt } := by
  cases hg : v.envGate
  · rw [envEdges_rising hg]
    simp
  · rw [envEdges_none hg]
    simp only [if_true, ← hg, ← h hg]

/-- ENV.STEP of a voice that is in Attack after step 1: R72 chooses the stage, the output is that stage's, and the timer
runs on after it (R72 to R77). -/
theorem envStep_of_attack {g : Bool} {v : Voice} (h : (envEdges c g v).envStage = .attack) :
    (envStep c k g v).1 =
      { envEdges c g v with
        envStage := if attackDone c k (envEdges c g v).envTime then .decaySustain else .attack
        envTime := c.num.add (envEdges c g v).envTime (timeStep c)
        envAtt :=
          if attackDone c k (envEdges c g v).envTime then decayOutput c k (envEdges c g v)
          else attackOutput c k (envEdges c g v) } := by
  rw [envStep_eq, envSettled, envAuto_attack k h]
  cases attackDone c k (envEdges c g v).envTime
  · rfl
  · rfl

theorem attackDone_iff (time : NumVal) :
    attackDone c k time = true ↔ c.num.le k.attack (c.num.ofInt 0) = true ∨ c.num.le k.attack time = true := by
  rw [attackDone, Bool.or_eq_true]

/-- With `decay > 0` the output falls from 1 toward `sustain` (R75, D22). -/
theorem decayOutput_of_decay_pos (v : Voice) (h : c.num.lt (c.num.ofInt 0) k.decay = true) :
    decayOutput c k v =
      c.num.min (c.num.ofInt 1)
        (c.num.max (c.num.sub (c.num.ofInt 1) (c.num.div (c.num.sub v.envTime k.attack) k.decay)) k.sustain) :=
  if_pos h

/-- With `decay <= 0` it is `sustain` at once (R75). -/
theorem decayOutput_of_decay_not_pos (v : Voice) (h : c.num.lt (c.num.ofInt 0) k.decay = false) :
    decayOutput c k v = k.sustain :=
  if_neg (Bool.eq_false_iff.mp h)

/-- Settles O39: after the edge the voice is in Attack, and R72's test of its timer chooses the stage and the output. -/
theorem attackEndsWhenTheTimerReachesIt : Obligations.AttackEndsWhenTheTimerReachesIt := by
  intro s v x hruns hx hgate hstage
  have hedge := envEdges_attack (c := s.cfg) hstage
  have hstep := envStep_of_attack (k := s.control) (congrArg Voice.envStage hedge)
  rw [hedge] at hstep
  refine ⟨tick s, _, _, _, exec_tick_of_runs hruns, tickVoices_getElem? hx, rfl, rfl, ?_⟩
  rw [voiceStep_env, hgate, hstep]
  refine ⟨fun hdone => ?_, fun hattack htime => ?_, rfl, rfl, rfl, rfl, rfl⟩
  · have hdone := (attackDone_iff _).mpr hdone
    exact ⟨if_pos hdone, fun hd => (if_pos hdone).trans (decayOutput_of_decay_pos _ hd),
      fun hd => (if_pos hdone).trans (decayOutput_of_decay_not_pos _ hd)⟩
  · have hrunning := mt (attackDone_iff (c := s.cfg) (k := s.control) _).mp
      (not_or.mpr ⟨Bool.eq_false_iff.mp hattack, Bool.eq_false_iff.mp htime⟩)
    exact ⟨if_neg hrunning, if_neg hrunning⟩

end Sys2Proof.Machine

/-! PROOFS. The filter's six steps in a TICK (spec 42_filter.md R80; 46_engine.md R130). OSC.STEP moves no stage, so the
filter of a TICK is FLT.PROC of the voice before it on the oscillator's sample, and ENV.STEP leaves the stages alone. -/

namespace Sys2Proof.Machine

variable {c : Cfg} {k : Control}

/-- With a filter, ENV.STEP sees what FLT.PROC leaves of the oscillator's voice and sample (R130). -/
theorem voiceFiltered_of_filter (h : c.filterEn = true) (v : Voice) :
    voiceFiltered c k v = fltProc c k (oscStep c k v).1 (oscStep c k v).2 :=
  if_pos h

/-- FLT.PROC of the stages of `v`: each stage moves toward the new value of the stage before it, the first toward the
input and the feedback of the old band-pass (R80). -/
theorem fltProc_stages (v : Voice) (x : NumVal) :
    (fltProc c k v x).1.fltS0 = c.num.add v.fltS0 (c.num.mul k.cutoff
      (c.num.add (c.num.sub x v.fltS0) (c.num.mul (filterFeedback c k) (c.num.sub v.fltS0 v.fltS1)))) ∧
    (fltProc c k v x).1.fltS1 =
      c.num.add v.fltS1 (c.num.mul k.cutoff (c.num.sub (fltProc c k v x).1.fltS0 v.fltS1)) ∧
    (fltProc c k v x).1.fltS2 =
      c.num.add v.fltS2 (c.num.mul k.cutoff (c.num.sub (fltProc c k v x).1.fltS1 v.fltS2)) ∧
    (fltProc c k v x).1.fltS3 =
      c.num.add v.fltS3 (c.num.mul k.cutoff (c.num.sub (fltProc c k v x).1.fltS2 v.fltS3)) :=
  ⟨rfl, rfl, rfl, rfl⟩

/-- The stages after a TICK are FLT.PROC's on the stages before it (R80, R130). -/
theorem voiceStep_stages_of_filter (h : c.filterEn = true) (v : Voice) :
    (voiceStep c k v).1.fltS0 = (fltProc c k v (oscStep c k v).2).1.fltS0 ∧
    (voiceStep c k v).1.fltS1 = (fltProc c k v (oscStep c k v).2).1.fltS1 ∧
    (voiceStep c k v).1.fltS2 = (fltProc c k v (oscStep c k v).2).1.fltS2 ∧
    (voiceStep c k v).1.fltS3 = (fltProc c k v (oscStep c k v).2).1.fltS3 := by
  rw [voiceStep_env, voiceFiltered_of_filter h, oscStep_voice]
  exact ⟨rfl, rfl, rfl, rfl⟩

/-- With a filter, the contribution is the new last stage times the attenuation (R80, R130). -/
theorem voiceStep_contribution_of_filter (h : c.filterEn = true) (v : Voice) :
    (voiceStep c k v).2 = c.num.mul (voiceStep c k v).1.fltS3 (voiceStep c k v).1.envAtt := by
  have hlast : (voiceStep c k v).1.fltS3 = (voiceFiltered c k v).1.fltS3 := by rw [voiceStep_env]
  rw [voiceStep_contribution, hlast, voiceFiltered_of_filter h, fltProc_output]

/-- Settles O45: the stages of each voice after a TICK are FLT.PROC's, and the last one is what the envelope scales. -/
theorem filterRunsTheSixSteps : Obligations.FilterRunsTheSixSteps := by
  intro s v x hruns hfilter hx
  obtain ⟨h0, h1, h2, h3⟩ := voiceStep_stages_of_filter (k := s.control) hfilter x
  refine ⟨tick s, _, _, _, _, exec_tick_of_runs hruns, tickVoices_getElem? hx, rfl, rfl, rfl, ?_⟩
  have hsteps := fltProc_stages (c := s.cfg) (k := s.control) x (oscStep s.cfg s.control x).2
  rw [← h0, ← h1, ← h2, ← h3] at hsteps
  obtain ⟨hs0, hs1, hs2, hs3⟩ := hsteps
  exact ⟨hs0, hs1, hs2, hs3, voiceStep_contribution_of_filter hfilter x⟩

end Sys2Proof.Machine

/-! PROOFS. NOTE_OFF (spec 43_voice_pool.md R91). The scan does not ask whether a voice is held, so a pitch may match a
free voice as well; its gate is already clear, and a pitch that is not held is therefore a no-op. -/

namespace Sys2Proof.Machine

/-- NOTE_OFF is the scan `releasePitch` of the voices, and nothing else (R91). -/
theorem exec_noteOff (chan : Nibble) (p : Data7) (s : State) :
    exec (.noteOff chan p) s = .next { s with voices := releasePitch p s.voices } := rfl

theorem clearGate_of_free {x : Voice} (h : x.gate = false) : x.clearGate = x := by
  rw [Voice.clearGate, ← h]

/-- A matching voice is free, and any other voice is passed over, so with the pitch unheld the scan changes nothing. -/
theorem releasePitch_unheld {p : Data7} {vs : List Voice} (h : ∀ x ∈ vs, x.gate = true → x.pitch ≠ p) :
    releasePitch p vs = vs := by
  refine (List.map_congr_left fun x hx => ?_).trans (List.map_id vs)
  by_cases hp : x.pitch = p
  · have hfree : x.gate = false := Bool.eq_false_iff.mpr fun hg => h x hx hg hp
    rw [if_pos hp, clearGate_of_free hfree, id]
  · rw [if_neg hp, id]

/-- Settles O18: the scan's reading at each index, and its identity on an unheld pitch. -/
theorem noteOffReleasesEveryMatch : Obligations.NoteOffReleasesEveryMatch := by
  intro s chan p
  refine ⟨⟨_, exec_noteOff chan p s, rfl, releasePitch_length s.voices, fun v x hx => releasePitch_getElem? hx⟩,
    fun hunheld => ?_⟩
  rw [exec_noteOff, releasePitch_unheld hunheld]

end Sys2Proof.Machine

/-! PROOFS. CC_SUSTAIN (spec 43_voice_pool.md R94; 30_encoding.md R52). -/

namespace Sys2Proof.Machine

/-- CC_SUSTAIN writes the level operand to `sustain`, and nothing else (R94). -/
theorem exec_ccSustain (chan : Nibble) (val : Data7) (s : State) :
    exec (.ccSustain chan val) s =
      .next { s with control := { s.control with sustain := levelOperand s.cfg val } } := rfl

/-- The greatest level is 1 (R52, R94). -/
theorem levelOperand_127 {c : Cfg} (hx : c.num = .exact) : levelOperand c 127 = 1 := by
  have hval : (127 : Data7).toNat = 127 := rfl
  rw [levelOperand, hx, exact_ofRat, hval, Nat.cast_ofNat]
  exact div_self (by norm_num)

/-- The least level is 0 (R52, R94). -/
theorem levelOperand_zero {c : Cfg} (hx : c.num = .exact) : levelOperand c 0 = 0 := by
  have hval : (0 : Data7).toNat = 0 := rfl
  rw [levelOperand, hx, exact_ofRat, hval, Nat.cast_zero, zero_div]

/-- Settles O21: `sustain` is the level operand, whose ends are 0 and 1 under exact arithmetic. -/
theorem sustainIsTheValueOver127 : Obligations.SustainIsTheValueOver127 := by
  intro s chan val
  refine ⟨exec_ccSustain chan val s, fun hx => ⟨?_, ?_⟩⟩
  · rw [exec_ccSustain, levelOperand_127 hx]
  · rw [exec_ccSustain, levelOperand_zero hx]

end Sys2Proof.Machine

/-! PROOFS. DLY.STEP in a TICK (spec 45_delay.md R120, R122, R123; decisions D8, D32). With the delay on, the push alone
decides the ring's contents, whether or not a pop follows; the fill then decides the tap and the cursors. -/

namespace Sys2Proof.Machine

variable {c : Cfg}

/-- The push stores the input at the tail, and the pop leaves it there (R120, D8). -/
theorem dlyStep_read_tail {d : Delay} (h0 : c.dlOffset ≠ 0) (hw : Mem.wf d.buf) (x : NumVal) :
    (dlyStep c d x).1.buf.read ((d.head + d.len) % c.dlCap) = x := by
  rw [dlyStep_buf, if_neg h0, Mem.read_write_same hw]

/-- The tail is the only element of the ring that a call writes (R120, D8). -/
theorem dlyStep_read_ne {d : Delay} (h0 : c.dlOffset ≠ 0) (x : NumVal) {i : Nat}
    (hi : i ≠ (d.head + d.len) % c.dlCap) : (dlyStep c d x).1.buf.read i = d.buf.read i := by
  rw [dlyStep_buf, if_neg h0, Mem.read_write_ne x hi]

/-- The tap is the head of the pushed ring when more than `DL_OFFSET` are then held, and 0 otherwise; either way it is
what the output mixes with the input (R120, R122, R123). -/
theorem dlyStep_tap (h0 : c.dlOffset ≠ 0) (d : Delay) (x : NumVal) :
    ∃ tap,
      (c.dlOffset < d.len + 1 → tap = (dlyStep c d x).1.buf.read d.head ∧
        (dlyStep c d x).1.head = (d.head + 1) % c.dlCap ∧ (dlyStep c d x).1.len = d.len) ∧
      (d.len + 1 ≤ c.dlOffset → tap = c.num.ofInt 0 ∧ (dlyStep c d x).1.head = d.head ∧
        (dlyStep c d x).1.len = d.len + 1) ∧
      (dlyStep c d x).2 = c.num.add (c.num.mul c.dlDry x) (c.num.mul c.dlWet tap) := by
  obtain hfull | hfill := Nat.lt_or_ge c.dlOffset (d.len + 1)
  · rw [dlyStep_full h0 hfull]
    exact ⟨_, fun _ => ⟨rfl, rfl, rfl⟩, fun hfill => absurd hfull hfill.not_gt, rfl⟩
  · rw [dlyStep_fill h0 hfill]
    exact ⟨_, fun hfull => absurd hfull hfill.not_gt, fun _ => ⟨rfl, rfl, rfl⟩, rfl⟩

/-- Settles O51: the TICK's delay is DLY.STEP on the chorus output, bypassed or with its tail, frame and tap. -/
theorem delayPushesThenPops : Obligations.DelayPushesThenPops := by
  intro s hruns hw
  by_cases h0 : s.cfg.dlOffset = 0
  · have hbypass : tickDelay s = (s.delay, (tickChorus s).2) := dlyStep_bypass h0 _ _
    exact ⟨tick s, _, s.cfg.num.ofInt 0, (tickDelay s).2, exec_tick_of_runs hruns, rfl, rfl,
      fun _ => ⟨congrArg Prod.fst hbypass, congrArg Prod.snd hbypass⟩, fun hon => absurd h0 hon⟩
  · obtain ⟨tap, hfull, hfill, hmix⟩ := dlyStep_tap h0 s.delay (tickChorus s).2
    exact ⟨tick s, _, tap, (tickDelay s).2, exec_tick_of_runs hruns, rfl, rfl, fun hoff => absurd hoff h0,
      fun _ => ⟨dlyStep_read_tail h0 hw _, fun _ => dlyStep_read_ne h0 _, hfull, hfill, hmix⟩⟩

end Sys2Proof.Machine

/-! PROOFS. The order of a TICK (spec 46_engine.md R131, R132; decisions D8, D30). Each unit stores what the unit before
it hands over: the chorus the sum at its cursor, bypassed or not, and the delay the chorus output at its tail. -/

namespace Sys2Proof.Machine

/-- CHO.STEP stores its input at the cursor, even when bypassed (R110, R111). -/
theorem choStep_read_cursor (c : Cfg) (k : Control) {ch : Chorus} (hw : Mem.wf ch.buf) (x : NumVal) :
    (choStep c k ch x).1.buf.read ch.wc = x := by
  rw [choStep_buf, Mem.read_write_same hw]

/-- Settles O27: the sum, the chorus output and the delay output of a TICK, with the element each ring stores. -/
theorem pipelineOrderIsFixed : Obligations.PipelineOrderIsFixed := by
  intro s hruns hchorus hdelay
  have hstoreSum : (tick s).chorus.buf.read s.chorus.wc = tickSum s := choStep_read_cursor _ _ hchorus _
  have hstoreOut (hon : 0 < s.cfg.dlOffset) :
      (tick s).delay.buf.read ((s.delay.head + s.delay.len) % s.cfg.dlCap) = (tickChorus s).2 :=
    dlyStep_read_tail hon.ne' hdelay _
  exact ⟨tick s, tickSum s, (tickChorus s).2, (tickDelay s).2, exec_tick_of_runs hruns, rfl, rfl, hstoreSum, rfl,
    hstoreOut, tick_outputs s⟩

end Sys2Proof.Machine

/-! PROOFS. Command words and instructions (spec 30_encoding.md R49 to R58, 43_voice_pool.md R100; decisions D1, D26,
D35). A mask of the spec is itself a word written field by field, so masking a word masks its fields; each statement
about words becomes one about the five fields. -/

namespace Sys2Proof

variable {k : StatusCodes} {cat chan : Nibble} {id val : Data7}

/-! Decoding an encoded instruction. -/

theorem decode_encode_cc (hk : k.distinct = true) :
    decode k (encodeFields 1 k.cc chan id val) = decodeCc chan id val := by
  rw [decode_encodeFields_event, decodeEvt_cc hk]

theorem decode_encode_ignored (h : k.ignores cat = true) :
    decode k (encodeFields 1 cat chan 0 0) = decodeIgnored cat chan := by
  rw [decode_encodeFields_event, decodeEvt_ignored h]

/-- Settles O1: an event is told by its category, a control change then by its id, an ignored event by its range. -/
theorem decodeOfEncodeIsIdentity : Obligations.DecodeOfEncodeIsIdentity := by
  intro k i hk hi
  cases i with
  | nop | tick | rsvdOp3 => simp [encode, decode]
  | noteOff chan pitch => rw [encode, decode_encodeFields_event, decodeEvt_noteOff]
  | noteOn chan pitch vel => rw [encode, decode_encodeFields_event, decodeEvt_noteOn hk]
  | ccAttack | ccDecay | ccSustain | ccRelease | ccOscmix | ccCutoff | ccResonance | ccChorusmix =>
    exact decode_encode_cc hk
  | ccIgn0 | ccIgn1 | ccIgn2 | ccIgn3 =>
    simp only [Instr.wellFormed, Bool.and_eq_true, decide_eq_true_eq] at hi
    refine (decode_encode_cc hk).trans ?_
    simp [decodeCc_ign0, decodeCc_ign1, decodeCc_ign2, decodeCc_ign3, hi]
  | evtIgn0 | evtIgn1 | evtIgn2 | evtIgn3 =>
    simp only [Instr.wellFormed, Bool.and_eq_true, decide_eq_true_eq] at hi
    refine (decode_encode_ignored (by simp [hi])).trans ?_
    simp [decodeIgnored_0, decodeIgnored_1, decodeIgnored_2, decodeIgnored_3, hi]

/-! Encoding a decoded word. -/

/-- Masking field by field. -/
theorem encodeFields_and (op op' : BitVec 2) (cat cat' chan chan' : Nibble) (d1 d1' d2 d2' : Data7) :
    encodeFields op cat chan d1 d2 &&& encodeFields op' cat' chan' d1' d2' =
      encodeFields (op &&& op') (cat &&& cat') (chan &&& chan') (d1 &&& d1') (d2 &&& d2') := by
  ext i hi
  simp only [← BitVec.getLsbD_eq_getElem, BitVec.getLsbD_and, getLsbD_encodeFields]
  split_ifs <;> simp

/-- A mask without bits 15 and 7 keeps what it keeps of each field. -/
theorem and_encodeFields (w : CmdWord) (op : BitVec 2) (cat chan : Nibble) (d1 d2 : Data7) :
    w &&& encodeFields op cat chan d1 d2 =
      encodeFields (opField w &&& op) (catField w &&& cat) (chanField w &&& chan) (d1Field w &&& d1)
        (d2Field w &&& d2) := by
  have hall : 0x3FF7F7F#26 &&& encodeFields op cat chan d1 d2 = encodeFields op cat chan d1 d2 := by
    rw [show 0x3FF7F7F#26 = encodeFields (BitVec.allOnes 2) (BitVec.allOnes 4) (BitVec.allOnes 4) (BitVec.allOnes 7)
      (BitVec.allOnes 7) from rfl, encodeFields_and]
    simp only [BitVec.allOnes_and]
  rw [← hall, ← BitVec.and_assoc, ← encodeFields_fields, encodeFields_and]

/-- The four masks of the rows' kept bits (R49 to R51): all fields; all but `d2`; category and channel; the class. -/
theorem and_keptMasks (w : CmdWord) :
    w &&& 0x3FF7F7F = encodeFields (opField w) (catField w) (chanField w) (d1Field w) (d2Field w) ∧
      w &&& 0x3FF7F00 = encodeFields (opField w) (catField w) (chanField w) (d1Field w) 0 ∧
      w &&& 0x3FF0000 = encodeFields (opField w) (catField w) (chanField w) 0 0 ∧
      w &&& 0x3000000 = encodeFields (opField w) 0 0 0 0 := by
  have hmask := and_encodeFields w (.allOnes 2)
  refine ⟨(encodeFields_fields w).symm, (hmask (.allOnes 4) (.allOnes 4) (.allOnes 7) 0).trans ?_,
    (hmask (.allOnes 4) (.allOnes 4) 0 0).trans ?_, (hmask 0 0 0 0).trans ?_⟩
  all_goals simp only [BitVec.and_allOnes, BitVec.ofNat_eq_ofNat, BitVec.and_zero]

/-- A control change of any id is well formed, has the word of its fields, and keeps all of them (R53, R54). -/
theorem encode_decodeCc (k : StatusCodes) (chan : Nibble) (id val : Data7) :
    (decodeCc chan id val).wellFormed k = true ∧
      encode k (decodeCc chan id val) = encodeFields 1 k.cc chan id val ∧
      keptBits (decodeCc chan id val) = 0x3FF7F7F := by
  obtain rfl | rfl | rfl | rfl | rfl | rfl | rfl | rfl | ⟨h, h'⟩ | ⟨h, h'⟩ | ⟨h, h'⟩ | h := controllerId_cases id
  iterate 8 exact ⟨rfl, rfl, rfl⟩
  · rw [decodeCc_ign0 h h']; exact ⟨by simp [Instr.wellFormed, h, h'], rfl, rfl⟩
  · rw [decodeCc_ign1 h h']; exact ⟨by simp [Instr.wellFormed, h, h'], rfl, rfl⟩
  · rw [decodeCc_ign2 h h']; exact ⟨by simp [Instr.wellFormed, h, h'], rfl, rfl⟩
  · rw [decodeCc_ign3 h]; exact ⟨by simp [Instr.wellFormed, h], rfl, rfl⟩

/-- An ignored event is well formed, has the word of its category and channel, and keeps these alone (R55). -/
theorem encode_decodeIgnored (h : k.ignores cat = true) (chan : Nibble) :
    (decodeIgnored cat chan).wellFormed k = true ∧
      encode k (decodeIgnored cat chan) = encodeFields 1 cat chan 0 0 ∧
      keptBits (decodeIgnored cat chan) = 0x3FF0000 := by
  unfold decodeIgnored
  split_ifs with h8 h12 h14
  · exact ⟨by simp [Instr.wellFormed, h, h8], rfl, rfl⟩
  · exact ⟨by simp [Instr.wellFormed, h, h12, not_lt.mp h8], rfl, rfl⟩
  · exact ⟨by simp [Instr.wellFormed, h, h14, not_lt.mp h12], rfl, rfl⟩
  · exact ⟨by simp [Instr.wellFormed, h, not_lt.mp h14], rfl, rfl⟩

/-- The words of class 1: the category chooses the mask (R50, R53). -/
theorem encode_decode_event (k : StatusCodes) {w : CmdWord} (hop : opField w = 1) :
    (decode k w).wellFormed k = true ∧ encode k (decode k w) = w &&& keptBits (decode k w) := by
  obtain ⟨hall, hnoD2, hstatus, -⟩ := and_keptMasks w
  rw [hop] at hall hnoD2 hstatus
  rw [decode_event hop, decodeEvt]
  split_ifs with hoff hon hcc
  · exact ⟨rfl, by rw [encode, keptBits, hnoD2, hoff]⟩
  · exact ⟨rfl, by rw [encode, keptBits, hall, hon]⟩
  · obtain ⟨hwf, henc, hkept⟩ := encode_decodeCc k (chanField w) (d1Field w) (d2Field w)
    exact ⟨hwf, by rw [henc, hkept, hall, hcc]⟩
  · have hign : k.ignores (catField w) = true := (StatusCodes.ignores_iff k).mpr ⟨hoff, hon, hcc⟩
    obtain ⟨hwf, henc, hkept⟩ := encode_decodeIgnored hign (chanField w)
    exact ⟨hwf, by rw [henc, hkept, hstatus]⟩

/-- Settles O2: outside class 1 a word keeps its class alone. -/
theorem encodeOfDecodeClearsIgnoredBits : Obligations.EncodeOfDecodeClearsIgnoredBits := by
  intro k w
  obtain ⟨-, -, -, hclass⟩ := and_keptMasks w
  have hops : opField w = 0 ∨ opField w = 1 ∨ opField w = 2 ∨ opField w = 3 := by
    generalize opField w = op
    revert op
    decide
  obtain h | h | h | h := hops
  · rw [show decode k w = .nop by simp [decode, h]]
    exact ⟨rfl, by rw [encode, keptBits, hclass, h]⟩
  · exact encode_decode_event k h
  · rw [show decode k w = .tick by simp [decode, h]]
    exact ⟨rfl, by rw [encode, keptBits, hclass, h]⟩
  · rw [show decode k w = .rsvdOp3 by simp [decode, h]]
    exact ⟨rfl, by rw [encode, keptBits, hclass, h]⟩

/-! The opcode table. -/

/-- The place of an instruction's row in the opcode table (R53). -/
def rowIndex : Instr → Fin 21
  | .nop => 0
  | .tick => 1
  | .rsvdOp3 => 2
  | .noteOff _ _ => 3
  | .noteOn _ _ _ => 4
  | .ccAttack _ _ => 5
  | .ccDecay _ _ => 6
  | .ccSustain _ _ => 7
  | .ccRelease _ _ => 8
  | .ccOscmix _ _ => 9
  | .ccCutoff _ _ => 10
  | .ccResonance _ _ => 11
  | .ccChorusmix _ _ => 12
  | .ccIgn0 _ _ _ => 13
  | .ccIgn1 _ _ _ => 14
  | .ccIgn2 _ _ _ => 15
  | .ccIgn3 _ _ _ => 16
  | .evtIgn0 _ _ => 17
  | .evtIgn1 _ _ => 18
  | .evtIgn2 _ _ => 19
  | .evtIgn3 _ _ => 20

/-- The row of an instruction (R53). -/
def opcodeRow (i : Instr) : OpcodeRow := opcodeTable.get (rowIndex i)

theorem opcodeRow_mem (i : Instr) : opcodeRow i ∈ opcodeTable := List.get_mem opcodeTable (rowIndex i)

theorem opcodeRow_mnemonic (i : Instr) : (opcodeRow i).mnemonic = mnemonicOf i := by cases i <;> rfl

/-- A row looks at no bit that its instructions drop. -/
theorem keptBits_and_mask (i : Instr) : keptBits i &&& (opcodeRow i).mask = (opcodeRow i).mask := by
  cases i <;> (simp only [keptBits, opcodeRow, rowIndex]; decide)

/-- The rows look at the class, the category and the controller id alone (R53). -/
theorem encodeFields_and_mask (n : Fin 21) {op : BitVec 2} {cat : Nibble} {d1 : Data7} (chan : Nibble) (d2 : Data7)
    (hop : op &&& opField (opcodeTable.get n).mask = opField (opcodeTable.get n).bits)
    (hcat : cat &&& catField (opcodeTable.get n).mask = catField (opcodeTable.get n).bits)
    (hd1 : d1 &&& d1Field (opcodeTable.get n).mask = d1Field (opcodeTable.get n).bits) :
    encodeFields op cat chan d1 d2 &&& (opcodeTable.get n).mask = (opcodeTable.get n).bits := by
  have hrows : ∀ r ∈ opcodeTable,
      r.mask = encodeFields (opField r.mask) (catField r.mask) 0 (d1Field r.mask) 0 ∧
        r.bits = encodeFields (opField r.bits) (catField r.bits) 0 (d1Field r.bits) 0 := by decide
  obtain ⟨hmask, hbits⟩ := hrows _ (List.get_mem opcodeTable n)
  rw [hmask, hbits, encodeFields_and, hop, hcat, hd1]
  simp only [BitVec.ofNat_eq_ofNat, BitVec.and_zero]

/-- The ranges of ids of the CC_IGN rows are told by the id's leading bits (R53, R54). -/
theorem ccIgn_leadingBits (id : Data7) :
    ((Instr.ccIgn0 0 id 0).wellFormed .midi = true → id &&& 0x78 = 0x08) ∧
      ((Instr.ccIgn1 0 id 0).wellFormed .midi = true → id &&& 0x70 = 0x10) ∧
      ((Instr.ccIgn2 0 id 0).wellFormed .midi = true → id &&& 0x60 = 0x20) ∧
      ((Instr.ccIgn3 0 id 0).wellFormed .midi = true → id &&& 0x40 = 0x40) := by
  revert id
  decide

/-- The categories of the EVT_IGN rows are told by the category's leading bits (R53, R55). -/
theorem evtIgn_leadingBits (cat : Nibble) :
    ((Instr.evtIgn0 cat 0).wellFormed .midi = true → cat &&& 0x8 = 0x0) ∧
      ((Instr.evtIgn1 cat 0).wellFormed .midi = true → cat &&& 0xF = 0xA) ∧
      ((Instr.evtIgn2 cat 0).wellFormed .midi = true → cat &&& 0xE = 0xC) ∧
      ((Instr.evtIgn3 cat 0).wellFormed .midi = true → cat &&& 0xE = 0xE) := by
  revert cat
  decide

/-- A well-formed instruction's word is under its row (R53). -/
theorem encode_and_mask {i : Instr} (hi : i.wellFormed StatusCodes.midi = true) :
    encode StatusCodes.midi i &&& (opcodeRow i).mask = (opcodeRow i).bits := by
  cases i with
  | nop | tick | rsvdOp3 => rfl
  | noteOff => exact encodeFields_and_mask 3 _ _ rfl rfl BitVec.and_zero
  | noteOn => exact encodeFields_and_mask 4 _ _ rfl rfl BitVec.and_zero
  | ccAttack => exact encodeFields_and_mask 5 _ _ rfl rfl rfl
  | ccDecay => exact encodeFields_and_mask 6 _ _ rfl rfl rfl
  | ccSustain => exact encodeFields_and_mask 7 _ _ rfl rfl rfl
  | ccRelease => exact encodeFields_and_mask 8 _ _ rfl rfl rfl
  | ccOscmix => exact encodeFields_and_mask 9 _ _ rfl rfl rfl
  | ccCutoff => exact encodeFields_and_mask 10 _ _ rfl rfl rfl
  | ccResonance => exact encodeFields_and_mask 11 _ _ rfl rfl rfl
  | ccChorusmix => exact encodeFields_and_mask 12 _ _ rfl rfl rfl
  | ccIgn0 _ id =>
    obtain ⟨h, -⟩ := ccIgn_leadingBits id
    exact encodeFields_and_mask 13 _ _ rfl rfl (h hi)
  | ccIgn1 _ id =>
    obtain ⟨-, h, -⟩ := ccIgn_leadingBits id
    exact encodeFields_and_mask 14 _ _ rfl rfl (h hi)
  | ccIgn2 _ id =>
    obtain ⟨-, -, h, -⟩ := ccIgn_leadingBits id
    exact encodeFields_and_mask 15 _ _ rfl rfl (h hi)
  | ccIgn3 _ id =>
    obtain ⟨-, -, -, h⟩ := ccIgn_leadingBits id
    exact encodeFields_and_mask 16 _ _ rfl rfl (h hi)
  | evtIgn0 cat =>
    obtain ⟨h, -⟩ := evtIgn_leadingBits cat
    exact encodeFields_and_mask 17 _ _ rfl (h hi) rfl
  | evtIgn1 cat =>
    obtain ⟨-, h, -⟩ := evtIgn_leadingBits cat
    exact encodeFields_and_mask 18 _ _ rfl (h hi) rfl
  | evtIgn2 cat =>
    obtain ⟨-, -, h, -⟩ := evtIgn_leadingBits cat
    exact encodeFields_and_mask 19 _ _ rfl (h hi) rfl
  | evtIgn3 cat =>
    obtain ⟨-, -, -, h⟩ := evtIgn_leadingBits cat
    exact encodeFields_and_mask 20 _ _ rfl (h hi) rfl

/-- A word is under the row of the instruction it decodes to: the row looks at kept bits alone, which encoding gives
back (R53). -/
theorem and_mask_opcodeRow (w : CmdWord) :
    w &&& (opcodeRow (decode StatusCodes.midi w)).mask = (opcodeRow (decode StatusCodes.midi w)).bits := by
  obtain ⟨hwf, henc⟩ := encodeOfDecodeClearsIgnoredBits StatusCodes.midi w
  rw [← keptBits_and_mask, ← BitVec.and_assoc, ← henc]
  exact encode_and_mask hwf

/-- No word is under two rows: two different rows ask for different values of some bit (R53). -/
theorem opcodeTable_disjoint {w : CmdWord} {r r' : OpcodeRow} (hr : r ∈ opcodeTable) (hr' : r' ∈ opcodeTable)
    (h : w &&& r.mask = r.bits) (h' : w &&& r'.mask = r'.bits) : r = r' := by
  have hclash : ∀ r ∈ opcodeTable, ∀ r' ∈ opcodeTable, r.bits &&& r'.mask = r'.bits &&& r.mask → r = r' := by decide
  refine hclash r hr r' hr' ?_
  rw [← h, ← h', BitVec.and_assoc, BitVec.and_assoc, BitVec.and_comm r.mask]

theorem opcodeTable_mnemonic_injective {r r' : OpcodeRow} (hr : r ∈ opcodeTable) (hr' : r' ∈ opcodeTable)
    (h : r.mnemonic = r'.mnemonic) : r = r' := by
  have hnames : ∀ r ∈ opcodeTable, ∀ r' ∈ opcodeTable, r.mnemonic = r'.mnemonic → r = r' := by decide
  exact hnames r hr r' hr' h

/-- Settles O3: every word is under the row of what it decodes to, and under no other. -/
theorem opcodeRowsSelectTheirInstruction : Obligations.OpcodeRowsSelectTheirInstruction := by
  refine ⟨fun w r hr => ⟨fun h => ?_, fun h => ?_⟩, fun w => ⟨_, opcodeRow_mem _, and_mask_opcodeRow w⟩,
    fun w r hr r' hr' => opcodeTable_disjoint hr hr'⟩
  · rw [opcodeTable_disjoint hr (opcodeRow_mem _) h (and_mask_opcodeRow w), opcodeRow_mnemonic]
  · rw [← opcodeRow_mnemonic] at h
    rw [← opcodeTable_mnemonic_injective (opcodeRow_mem _) hr h]
    exact and_mask_opcodeRow w

/-- Settles O4: each word's fields are closed, so decoding evaluates. -/
theorem decodesTheSpecWords : Obligations.DecodesTheSpecWords := by
  unfold Obligations.DecodesTheSpecWords
  decide

/-! What a decoded word does not depend on. -/

/-- Settles O5: bits 15 and 7 are in no field. -/
theorem bit7OfDataBytesIsDiscarded : Obligations.Bit7OfDataBytesIsDiscarded := by
  intro k w
  refine ⟨?_, ?_, decode_congr ?_, decode_congr ?_⟩
  · rw [d1Field, BitVec.extractLsb'_toNat, Nat.shiftRight_eq_div_pow]
  · rw [d2Field, BitVec.extractLsb'_toNat, Nat.shiftRight_zero]
  · rw [BitVec.and_or_distrib_right, show 0x0008080#26 &&& 0x3FF7F7F#26 = 0#26 from rfl, BitVec.or_zero]
  · rw [BitVec.and_assoc, show ~~~0x0008080#26 &&& 0x3FF7F7F#26 = 0x3FF7F7F#26 from rfl]

end Sys2Proof

namespace Sys2Proof.Machine

/-- A control change does the same on every channel (R50). -/
theorem exec_decodeCc_chan (chan chan' : Nibble) (id val : Data7) (s : State) :
    exec (decodeCc chan id val) s = exec (decodeCc chan' id val) s := by
  obtain rfl | rfl | rfl | rfl | rfl | rfl | rfl | rfl | ⟨h, h'⟩ | ⟨h, h'⟩ | ⟨h, h'⟩ | h := controllerId_cases id
  iterate 8 rfl
  · rw [decodeCc_ign0 h h', decodeCc_ign0 h h']; rfl
  · rw [decodeCc_ign1 h h', decodeCc_ign1 h h']; rfl
  · rw [decodeCc_ign2 h h', decodeCc_ign2 h h']; rfl
  · rw [decodeCc_ign3 h, decodeCc_ign3 h]; rfl

/-- An event does the same on every channel (R50). -/
theorem exec_decodeEvt_chan (k : StatusCodes) (cat chan chan' : Nibble) (d1 d2 : Data7) (s : State) :
    exec (decodeEvt k cat chan d1 d2) s = exec (decodeEvt k cat chan' d1 d2) s := by
  unfold decodeEvt
  split_ifs
  · rfl
  · rfl
  · exact exec_decodeCc_chan chan chan' d1 d2 s
  · rw [exec_decodeIgnored, exec_decodeIgnored]

/-- Two words that agree outside the channel do the same (R50). -/
theorem exec_decode_congr {k : StatusCodes} {w w' : CmdWord} (hop : opField w = opField w')
    (hcat : catField w = catField w') (h1 : d1Field w = d1Field w') (h2 : d2Field w = d2Field w') (s : State) :
    exec (decode k w) s = exec (decode k w') s := by
  rw [decode, decode, hop, hcat, h1, h2]
  split_ifs
  · rfl
  · exact exec_decodeEvt_chan k _ _ _ _ _ s
  · rfl
  · rfl

/-- Writing the channel nibble leaves every other bit of the word (R50). -/
theorem getLsbD_setChannel (w : CmdWord) (chan : Nibble) {i : Nat} (h : i < 16 ∨ 20 ≤ i) :
    (w &&& ~~~0x00F0000#26 ||| chan.zeroExtend 26 <<< 16).getLsbD i = w.getLsbD i := by
  have hkept : ∀ i : Fin 26, i.val < 16 ∨ 20 ≤ i.val → (~~~0x00F0000#26).getLsbD i = true := by decide
  have hchan : (chan.zeroExtend 26 <<< 16).getLsbD i = false := by
    rw [BitVec.getLsbD_shiftLeft, BitVec.getLsbD_setWidth]
    obtain h | h := h
    · simp [h]
    · rw [BitVec.getLsbD_of_ge chan (i - 16) (by omega)]
      simp
  obtain hi | hi := Nat.lt_or_ge i 26
  · rw [BitVec.getLsbD_or, BitVec.getLsbD_and, hkept ⟨i, hi⟩ h, hchan, Bool.and_true, Bool.or_false]
  · rw [BitVec.getLsbD_of_ge _ _ hi, BitVec.getLsbD_of_ge _ _ hi]

/-- Settles O6: the other fields lie below the channel nibble or above it. -/
theorem channelIsIgnored : Obligations.ChannelIsIgnored := by
  intro k w chan s
  have hfield (start len : Nat) (h : start + len ≤ 16 ∨ 20 ≤ start) :
      (w &&& ~~~0x00F0000#26 ||| chan.zeroExtend 26 <<< 16).extractLsb' start len = w.extractLsb' start len := by
    ext i hi
    rw [BitVec.getElem_extractLsb', BitVec.getElem_extractLsb', getLsbD_setChannel w chan (by omega)]
  exact exec_decode_congr (hfield 24 2 (by decide)) (hfield 20 4 (by decide)) (hfield 8 7 (by decide))
    (hfield 0 7 (by decide)) s

end Sys2Proof.Machine

/-! PROOFS. What each command writes (spec 10_state.md R22, R23; 43_voice_pool.md R90 to R100). A command other than
TICK rewrites the note registers by one scan, or one control register; two functions say which, and every fact about
such a command is one about them. -/

namespace Sys2Proof.Machine

/-- The voices after a command that is no TICK (R90, R91). -/
def eventVoices (c : Cfg) : Instr → List Voice → List Voice
  | .noteOff _ p, vs => releasePitch p vs
  | .noteOn _ p vel, vs => allocate p (pitchFrequency c p) vel vs
  | _, vs => vs

/-- The control registers after a command that is no TICK (R92 to R100). -/
def eventControl (c : Cfg) : Instr → Control → Control
  | .ccAttack _ val, k => { k with attack := timeOperand c val }
  | .ccDecay _ val, k => { k with decay := timeOperand c val }
  | .ccSustain _ val, k => { k with sustain := levelOperand c val }
  | .ccRelease _ val, k => { k with release := timeOperand c val }
  | .ccOscmix _ val, k => { k with oscmix := mixOperand c val }
  | .ccCutoff _ val, k => { k with cutoff := cutoffOperand c val }
  | .ccResonance _ val, k => { k with resonance := resonanceOperand c val }
  | .ccChorusmix _ val, k => { k with chorusmix := levelOperand c val }
  | _, k => k

/-- The state after a command that is no TICK. -/
def afterEvent (i : Instr) (s : State) : State :=
  { s with voices := eventVoices s.cfg i s.voices, control := eventControl s.cfg i s.control }

/-- Every command but TICK completes in every state. -/
theorem exec_eq_afterEvent {i : Instr} (hi : i ≠ .tick) (s : State) : exec i s = .next (afterEvent i s) := by
  cases i with
  | tick => exact absurd rfl hi
  | _ => rfl

@[simp] theorem eventVoices_length (c : Cfg) (i : Instr) (vs : List Voice) :
    (eventVoices c i vs).length = vs.length := by
  cases i with
  | noteOff => exact releasePitch_length vs
  | noteOn => exact allocate_length vs
  | _ => rfl

/-- A voice after a command is the voice before it, but for its note registers; a new frequency is a pitch's. -/
theorem eventVoices_getElem? (c : Cfg) (i : Instr) {vs : List Voice} {v : Nat} {x : Voice} (hx : vs[v]? = some x) :
    ∃ y, (eventVoices c i vs)[v]? = some y ∧
      y = { x with gate := y.gate, pitch := y.pitch, freq := y.freq, vel := y.vel } ∧
      (y.freq = x.freq ∨ ∃ p, y.freq = pitchFrequency c p) := by
  cases i with
  | noteOff chan p =>
    refine ⟨_, releasePitch_getElem? hx, ?_⟩
    split
    · exact ⟨rfl, .inl rfl⟩
    · exact ⟨rfl, .inl rfl⟩
  | noteOn chan p vel =>
    obtain h | h := allocate_getElem? (p := p) (f := pitchFrequency c p) (vel := vel) hx
    · exact ⟨x, h, rfl, .inl rfl⟩
    · exact ⟨_, h, rfl, .inr ⟨p, rfl⟩⟩
  | _ => exact ⟨x, hx, rfl, .inl rfl⟩

theorem eventVoices_of_no_note (c : Cfg) {i : Instr} (hoff : ∀ chan p, i ≠ .noteOff chan p)
    (hon : ∀ chan p vel, i ≠ .noteOn chan p vel) (vs : List Voice) : eventVoices c i vs = vs := by
  cases i with
  | noteOff chan p => exact absurd rfl (hoff chan p)
  | noteOn chan p vel => exact absurd rfl (hon chan p vel)
  | _ => rfl

/-- Each control register has one control change that writes it (R23). -/
theorem eventControl_frame (c : Cfg) (i : Instr) (k : Control) :
    ((∀ chan val, i ≠ .ccAttack chan val) → (eventControl c i k).attack = k.attack) ∧
      ((∀ chan val, i ≠ .ccDecay chan val) → (eventControl c i k).decay = k.decay) ∧
      ((∀ chan val, i ≠ .ccSustain chan val) → (eventControl c i k).sustain = k.sustain) ∧
      ((∀ chan val, i ≠ .ccRelease chan val) → (eventControl c i k).release = k.release) ∧
      ((∀ chan val, i ≠ .ccOscmix chan val) → (eventControl c i k).oscmix = k.oscmix) ∧
      ((∀ chan val, i ≠ .ccCutoff chan val) → (eventControl c i k).cutoff = k.cutoff) ∧
      ((∀ chan val, i ≠ .ccResonance chan val) → (eventControl c i k).resonance = k.resonance) ∧
      ((∀ chan val, i ≠ .ccChorusmix chan val) → (eventControl c i k).chorusmix = k.chorusmix) := by
  cases i <;> simp [eventControl]

/-- Settles O25: the scans keep all but the note registers, and each control change writes one register. -/
theorem eachRegisterHasItsWriters : Obligations.EachRegisterHasItsWriters := by
  intro i s hi
  exact ⟨afterEvent i s, exec_eq_afterEvent hi s, rfl, rfl, rfl, rfl, rfl, eventVoices_length _ _ _,
    fun v x hx => (eventVoices_getElem? s.cfg i hx).imp fun _ ⟨hy, hyx, _⟩ => ⟨hy, hyx⟩,
    fun hoff hon => eventVoices_of_no_note s.cfg hoff hon s.voices, eventControl_frame s.cfg i s.control⟩

/-- Settles O15: none of these commands writes a voice or a control register. -/
theorem unmappedControlsAndIdleCommandsChangeNothing : Obligations.UnmappedControlsAndIdleCommandsChangeNothing :=
  fun _ _ _ _ => ⟨rfl, rfl, rfl, rfl, rfl, rfl⟩

end Sys2Proof.Machine

/-! PROOFS. NOTE_ON on a full pool (spec 43_voice_pool.md R90, R102). -/

namespace Sys2Proof.Machine

/-- Settles O17: the scan finds no free voice. -/
theorem noteOnWithoutFreeVoiceIsDropped : Obligations.NoteOnWithoutFreeVoiceIsDropped := by
  intro s chan p vel hheld
  rw [exec_noteOn, allocate_full hheld]

/-- The scan of NOTE_ON for a note of channel, pitch and velocity. -/
def allocateNote (c : Cfg) (vs : List Voice) (n : Nibble × Data7 × Data7) : List Voice :=
  allocate n.2.1 (pitchFrequency c n.2.1) n.2.2 vs

/-- A free voice with a note. -/
def Voice.withNote (c : Cfg) (x : Voice) (n : Nibble × Data7 × Data7) : Voice :=
  { x with pitch := n.2.1, freq := pitchFrequency c n.2.1, vel := n.2.2, gate := true }

/-- Note-ons executed in order are their scans in order. -/
theorem execAll_noteOn (notes : List (Nibble × Data7 × Data7)) (s : State) :
    execAll (notes.map (fun n => .noteOn n.1 n.2.1 n.2.2)) s =
      .next { s with voices := notes.foldl (allocateNote s.cfg) s.voices } := by
  induction notes generalizing s with
  | nil => rfl
  | cons n notes ih => exact ih { s with voices := allocateNote s.cfg s.voices n }

/-- A held voice at the front is passed over by every scan. -/
theorem foldl_allocateNote_cons {c : Cfg} {x : Voice} (hx : x.gate = true) (notes : List (Nibble × Data7 × Data7))
    (vs : List Voice) : notes.foldl (allocateNote c) (x :: vs) = x :: notes.foldl (allocateNote c) vs := by
  induction notes generalizing vs with
  | nil => rfl
  | cons n notes ih =>
    have hscan : allocateNote c (x :: vs) n = x :: allocateNote c vs n := by
      simp [allocateNote, allocate, Voice.isFree, hx]
    rw [List.foldl_cons, hscan, ih, List.foldl_cons]

/-- Free voices take the notes one by one, and the notes beyond the last voice are dropped. -/
theorem foldl_allocateNote_free {c : Cfg} {vs : List Voice} (hfree : ∀ x ∈ vs, x.gate = false)
    {notes : List (Nibble × Data7 × Data7)} (hlen : vs.length ≤ notes.length) :
    notes.foldl (allocateNote c) vs = List.zipWith (Voice.withNote c) vs notes := by
  induction vs generalizing notes with
  | nil =>
    rw [List.zipWith_nil_left]
    clear hlen
    induction notes with
    | nil => rfl
    | cons n notes ih => exact ih
  | cons x vs ih =>
    obtain ⟨hx, hvs⟩ := List.forall_mem_cons.mp hfree
    cases notes with
    | nil => exact absurd hlen (by simp)
    | cons n notes =>
      have hscan : allocateNote c (x :: vs) n = x.withNote c n :: vs := by
        simp [allocateNote, allocate, Voice.isFree, hx, Voice.withNote]
      rw [List.foldl_cons, hscan, foldl_allocateNote_cons rfl, ih hvs (Nat.le_of_succ_le_succ hlen),
        List.zipWith_cons_cons]

/-- Settles O19: the notes and the free voices are paired in order, as far as the voices reach. -/
theorem poolOverflowKeepsTheFirstNotes : Obligations.PoolOverflowKeepsTheFirstNotes := by
  intro s notes hfree hlen
  have hle : s.voices.length ≤ notes.length := by omega
  have hpool := foldl_allocateNote_free (c := s.cfg) hfree hle
  refine ⟨_, execAll_noteOn notes s, rfl, ?_, fun v x n f hx hn hf => ?_⟩
  · rw [hpool, List.length_zipWith, min_eq_left hle]
  · simp [hpool, List.getElem?_zipWith, hx, hn, Voice.withNote, pitchFrequency_of_getElem? hf]

end Sys2Proof.Machine

/-! PROOFS. The operands of the control changes and their ranges (spec 43_voice_pool.md R92 to R99; 30_encoding.md R52;
10_state.md R24; decisions D5, D27). -/

namespace Sys2Proof.Machine

variable {c : Cfg}

theorem data7_cast_le (val : Data7) : (val.toNat : Rat) ≤ 127 := by
  exact_mod_cast Nat.le_of_lt_succ val.isLt

/-- `val / 127` is in `[0, 1]` (R94, R96, R99). -/
theorem level_inUnit (val : Data7) : InUnit ((val.toNat : Rat) / 127) :=
  ⟨by positivity, by rw [div_le_one (by norm_num)]; exact data7_cast_le val⟩

/-- `(val + 1) / 129` is in `(0, 1)` (R97). -/
theorem cutoff_mem (val : Data7) : 0 < ((val.toNat : Rat) + 1) / 129 ∧ ((val.toNat : Rat) + 1) / 129 < 1 :=
  ⟨by positivity, by rw [div_lt_one (by norm_num)]; linarith [data7_cast_le val]⟩

/-- `val / 128` is in `[0, 1)` (R98). -/
theorem resonance_mem (val : Data7) : 0 ≤ (val.toNat : Rat) / 128 ∧ (val.toNat : Rat) / 128 < 1 :=
  ⟨by positivity, by rw [div_lt_one (by norm_num)]; linarith [data7_cast_le val]⟩

/-- Settles O24: each change is its operand's, and the three quotients are in range. -/
theorem cutoffResonanceAndChorusmixValues : Obligations.CutoffResonanceAndChorusmixValues :=
  fun _ _ val => ⟨rfl, rfl, rfl, cutoff_mem val, resonance_mem val, level_inUnit val⟩

/-- The time of an operand is its entry of `CC_TIME` (R52, R92). -/
theorem timeOperand_of_getElem? {val : Data7} {x : NumVal} (h : c.ccTime[val.toNat]? = some x) :
    timeOperand c val = x := romRead_eq h

/-- CC_ATTACK, CC_DECAY and CC_RELEASE write the time operand to their register (R92, R93, R95). -/
theorem exec_ccTime (chan : Nibble) (val : Data7) (s : State) :
    exec (.ccAttack chan val) s = .next { s with control := { s.control with attack := timeOperand s.cfg val } } ∧
      exec (.ccDecay chan val) s = .next { s with control := { s.control with decay := timeOperand s.cfg val } } ∧
      exec (.ccRelease chan val) s =
        .next { s with control := { s.control with release := timeOperand s.cfg val } } := ⟨rfl, rfl, rfl⟩

/-- A legal `CC_TIME` has an entry for every operand (R6). -/
theorem ccTime_getElem?_some (hl : c.legal = true) (val : Data7) :
    c.ccTime[val.toNat]? = some (timeOperand c val) := by
  have hval : val.toNat < c.ccTime.length := by rw [(Cfg.sizes_of_legal hl).ccTime]; exact val.isLt
  rw [List.getElem?_eq_getElem hval, timeOperand, romRead_eq (List.getElem?_eq_getElem hval)]

/-- The values R6 gives `CC_TIME`. -/
theorem ccTime_of_hardwareValues (h : c.hardwareValues = true) :
    c.ccTime[0]? = some (c.num.ofInt 0) ∧ c.ccTime[33]? = some (c.num.ofInt 1) ∧
      c.ccTime[66]? = some (c.num.ofInt 3) ∧ c.ccTime[99]? = some (c.num.ofInt 7) := by
  simp only [Cfg.hardwareValues, Bool.and_eq_true, decide_eq_true_eq] at h
  simp only [h, and_self]

/-- Settles O20: each change is its operand's, and a legal table has the entry. -/
theorem envelopeTimesComeFromTheTable : Obligations.EnvelopeTimesComeFromTheTable := by
  refine ⟨fun s chan val x hx => ?_, fun c val hl => ⟨_, ccTime_getElem?_some hl val⟩, fun c hexact hl => ?_,
    fun c => ccTime_of_hardwareValues⟩
  · rw [← timeOperand_of_getElem? hx]
    exact exec_ccTime chan val s
  · have hzero : timeOperand c 0 = 0 := (Cfg.ranges_of_legal hexact hl).ccTime0
    rw [← hzero]
    exact ccTime_getElem?_some hl 0

/-- CC_OSCMIX writes the mix operand to `oscmix`, and nothing else (R96). -/
theorem exec_ccOscmix (chan : Nibble) (val : Data7) (s : State) :
    exec (.ccOscmix chan val) s =
      .next { s with control := { s.control with oscmix := mixOperand s.cfg val } } := rfl

@[simp] theorem mixOperand_length (c : Cfg) (val : Data7) : (mixOperand c val).length = c.nwaves := by
  simp [mixOperand]

/-- Settles O22: the mix operand lists the weights by slot. -/
theorem oscmixFollowsTheTriangularLaw : Obligations.OscmixFollowsTheTriangularLaw := by
  intro s chan val
  refine ⟨_, exec_ccOscmix chan val s, rfl, mixOperand_length s.cfg val, fun i hi => ?_⟩
  rw [mixOperand, List.getElem?_map, List.getElem?_range hi]
  rfl

/-- A weight under exact arithmetic: a triangle of height 1 around slot `i`, over the control's place among the slots
(R96). -/
theorem mixWeight_exact (hx : c.num = .exact) (hn : 2 ≤ c.nwaves) (x : NumVal) (i : Nat) :
    mixWeight c x i = max 0 (1 - |x * ((c.nwaves : Rat) - 1) - i|) := by
  have hpos : (0 : Rat) < (c.nwaves : Rat) - 1 := by
    have : (2 : Rat) ≤ c.nwaves := by exact_mod_cast hn
    linarith
  have hscale : |x - i / ((c.nwaves : Rat) - 1)| / (1 / ((c.nwaves : Rat) - 1)) = |x * ((c.nwaves : Rat) - 1) - i| := by
    rw [div_div_eq_mul_div, div_one, ← abs_of_pos hpos, ← abs_mul, abs_of_pos hpos, sub_mul,
      div_mul_cancel₀ _ hpos.ne']
  simp only [mixWeight, hx, exact_max, exact_sub, exact_abs, exact_ofRat, exact_ofInt, Int.cast_zero, Int.cast_one,
    exact_div _ (one_div_pos.mpr hpos).ne', hscale]

/-- The triangles of the first `n` slots sum to the distance that a place `y >= 0` keeps from `n`, at most 1. -/
theorem sum_triangles {y : Rat} (hy : 0 ≤ y) (n : Nat) :
    ((List.range n).map (fun i : Nat => max 0 (1 - |y - i|))).sum = min 1 (max 0 (n - y)) := by
  induction n with
  | zero => simp [hy]
  | succ n ih =>
    rw [List.range_succ, List.map_append, List.sum_append, ih, List.map_singleton, List.sum_singleton]
    push_cast
    obtain h | h := le_total y n
    · rw [abs_of_nonpos (sub_nonpos.mpr h)]
      simp only [min_def, max_def]
      split_ifs <;> linarith
    · rw [abs_of_nonneg (sub_nonneg.mpr h)]
      simp only [min_def, max_def]
      split_ifs <;> linarith

/-- The weights under exact arithmetic, over the value's place among the slots (R96). -/
theorem mixOperand_exact (hx : c.num = .exact) (hn : 2 ≤ c.nwaves) (val : Data7) :
    mixOperand c val = (List.range c.nwaves).map
      (fun i : Nat => max 0 (1 - |(val.toNat : Rat) / 127 * ((c.nwaves : Rat) - 1) - i|)) := by
  rw [mixOperand, levelOperand, hx, exact_ofRat]
  exact List.map_congr_left fun i _ => mixWeight_exact hx hn _ i

/-- Each weight is in `[0, 1]` (R24, R96). -/
theorem mixOperand_inUnit (hx : c.num = .exact) (hn : 2 ≤ c.nwaves) (val : Data7) :
    ∀ m ∈ mixOperand c val, InUnit m := by
  intro m hm
  rw [mixOperand_exact hx hn] at hm
  obtain ⟨i, -, rfl⟩ := List.mem_map.mp hm
  exact ⟨le_max_left _ _, max_le zero_le_one (sub_le_self _ (abs_nonneg _))⟩

/-- Settles O23: the value's place lies at least 1 below `NWAVES`, so the triangles sum to 1. -/
theorem oscmixWeightsSumToOne : Obligations.OscmixWeightsSumToOne := by
  intro s chan val hx hn
  obtain ⟨hlow, hhigh⟩ := level_inUnit val
  have hslots : (2 : Rat) ≤ s.cfg.nwaves := by exact_mod_cast hn
  have hlast : (val.toNat : Rat) / 127 * ((s.cfg.nwaves : Rat) - 1) ≤ (s.cfg.nwaves : Rat) - 1 :=
    mul_le_of_le_one_left (by linarith) hhigh
  refine ⟨_, exec_ccOscmix chan val s, ?_, mixOperand_inUnit hx hn val⟩
  show (mixOperand s.cfg val).sum = 1
  rw [mixOperand_exact hx hn, sum_triangles (mul_nonneg hlow (by linarith)),
    min_eq_left (le_max_of_le_right (by linarith))]

end Sys2Proof.Machine

/-! PROOFS. The envelope in a TICK (spec 41_envelope.md R71 to R79; decisions D11, D18, D19, D21, D22). The stage that
the gate edge leaves decides the call: `envStep_of_attack` says it of Attack, and here stand the other three stages, the
stages' outputs under exact arithmetic, and what the obligations say of single samples and of two samples in a row. -/

namespace Sys2Proof.Machine

variable {c : Cfg} {k : Control} {g : Bool} {v : Voice}

/-! ENV.STEP by the stage after the edge. -/

/-- A releasing voice or one on its falling edge: after step 1 it is in Release, with last output and timer of its own
or, on the edge, the output of the call before and the timer 0 (R71, D21). -/
theorem envEdges_release (h : v.envGate = false → v.envStage = .release) :
    envEdges c false v =
      { v with
        envGate := false
        envStage := .release
        envRtime := if v.envGate = true then c.num.ofInt 0 else v.envRtime
        envLast := if v.envGate = true then v.envAtt else v.envLast } := by
  cases hg : v.envGate
  · rw [envEdges_none hg]
    simp only [Bool.false_eq_true, if_false]
    rw [← h hg, ← hg]
  · rw [envEdges_falling hg]
    simp

/-- The edge memory takes the gate, edge or not (R71). -/
theorem envEdges_envGate : (envEdges c g v).envGate = g := by
  unfold envEdges
  split_ifs <;> rfl

/-- Idle outputs 0 (R73, R77). -/
theorem envStep_of_idle (h : (envEdges c g v).envStage = .idle) :
    (envStep c k g v).1 = { envEdges c g v with envAtt := c.num.ofInt 0 } := by
  rw [envStep_eq, envSettled, envAuto_other k (by simp [h])]
  simp only [envTimers, envOutput, h]

/-- Attack goes on its line while the timer is short of `attack` (R74, R77). -/
theorem envStep_of_attack_running (h : (envEdges c g v).envStage = .attack)
    (hrun : attackDone c k (envEdges c g v).envTime = false) :
    (envStep c k g v).1 =
      { envEdges c g v with
        envTime := c.num.add (envEdges c g v).envTime (timeStep c)
        envAtt := attackOutput c k (envEdges c g v) } := by
  rw [envStep_of_attack h, if_neg (Bool.eq_false_iff.mp hrun), if_neg (Bool.eq_false_iff.mp hrun), ← h]

/-- Attack that is done answers as DecaySustain in the same call (R72, R75, R77). -/
theorem envStep_of_attack_done (h : (envEdges c g v).envStage = .attack)
    (hdone : attackDone c k (envEdges c g v).envTime = true) :
    (envStep c k g v).1 =
      { envEdges c g v with
        envStage := .decaySustain
        envTime := c.num.add (envEdges c g v).envTime (timeStep c)
        envAtt := decayOutput c k (envEdges c g v) } := by
  rw [envStep_of_attack h, if_pos hdone, if_pos hdone]

/-- DecaySustain outputs its decay, and the timer runs on (R75, R77). -/
theorem envStep_of_decaySustain (h : (envEdges c g v).envStage = .decaySustain) :
    (envStep c k g v).1 =
      { envEdges c g v with
        envTime := c.num.add (envEdges c g v).envTime (timeStep c)
        envAtt := decayOutput c k (envEdges c g v) } := by
  rw [envStep_eq, envSettled, envAuto_other k (by simp [h])]
  simp only [envTimers, envOutput, h]

/-- Release outputs its line, its timer runs on, and an output of 0 ends it (R76, R77). -/
theorem envStep_of_release (h : (envEdges c g v).envStage = .release) :
    (envStep c k g v).1 =
      { envEdges c g v with
        envStage := if c.num.eq (releaseOutput c k (envEdges c g v)) (c.num.ofInt 0) then .idle else .release
        envRtime := c.num.add (envEdges c g v).envRtime (timeStep c)
        envAtt := releaseOutput c k (envEdges c g v) } := by
  rw [envStep_eq, envSettled, envAuto_other k (by simp [h])]
  simp only [envTimers, envOutput, h]

theorem envStep_envGate : (envStep c k g v).1.envGate = g := by
  cases h : (envEdges c g v).envStage with
  | idle => rw [envStep_of_idle h]; exact envEdges_envGate
  | attack => rw [envStep_of_attack h]; exact envEdges_envGate
  | decaySustain => rw [envStep_of_decaySustain h]; exact envEdges_envGate
  | release => rw [envStep_of_release h]; exact envEdges_envGate

/-- A voice is in Attack after a call only when it was so after the edge, its timer short of `attack` (R72). -/
theorem attack_of_envStep_attack (h : (envStep c k g v).1.envStage = .attack) :
    (envEdges c g v).envStage = .attack ∧ attackDone c k (envEdges c g v).envTime = false := by
  cases hs : (envEdges c g v).envStage with
  | idle => rw [envStep_of_idle hs] at h; exact absurd (hs.symm.trans h) (by decide)
  | attack =>
    refine ⟨rfl, Bool.eq_false_iff.mpr fun hdone => ?_⟩
    rw [envStep_of_attack_done hs hdone] at h
    cases h
  | decaySustain => rw [envStep_of_decaySustain hs] at h; exact absurd (hs.symm.trans h) (by decide)
  | release =>
    rw [envStep_of_release hs] at h
    dsimp only at h
    split at h <;> cases h

/-- A voice is in Release after a call only when it was so after the edge (R72, R77). -/
theorem release_of_envStep_release (h : (envStep c k g v).1.envStage = .release) :
    (envEdges c g v).envStage = .release := by
  cases hs : (envEdges c g v).envStage with
  | idle => rw [envStep_of_idle hs] at h; exact absurd (hs.symm.trans h) (by decide)
  | attack =>
    rw [envStep_of_attack hs] at h
    dsimp only at h
    split at h <;> cases h
  | decaySustain => rw [envStep_of_decaySustain hs] at h; exact absurd (hs.symm.trans h) (by decide)
  | release => rfl

/-! The outputs under exact arithmetic. -/

theorem attackOutput_exact (hx : c.num = .exact) (ha : 0 < k.attack) (v : Voice) :
    attackOutput c k v = v.envStart + (1 - v.envStart) * (v.envTime / k.attack) := by
  simp only [attackOutput, hx, exact_add, exact_mul, exact_sub, exact_ofInt, Int.cast_one, exact_div _ ha.ne']

theorem decayOutput_exact_of_pos (hx : c.num = .exact) (hd : 0 < k.decay) (v : Voice) :
    decayOutput c k v = min 1 (max (1 - (v.envTime - k.attack) / k.decay) k.sustain) := by
  rw [decayOutput_of_decay_pos v (by simpa [hx] using hd)]
  simp only [hx, exact_min, exact_max, exact_sub, exact_ofInt, Int.cast_one, exact_div _ hd.ne']

theorem decayOutput_exact_of_not_pos (hx : c.num = .exact) (hd : k.decay ≤ 0) (v : Voice) :
    decayOutput c k v = k.sustain :=
  decayOutput_of_decay_not_pos v (by simpa [hx] using hd)

theorem releaseOutput_of_not_pos (h : c.num.le k.release (c.num.ofInt 0) = true) (v : Voice) :
    releaseOutput c k v = c.num.ofInt 0 := if_pos h

theorem releaseOutput_of_pos (h : c.num.le k.release (c.num.ofInt 0) = false) (v : Voice) :
    releaseOutput c k v =
      c.num.clamp (c.num.mul v.envLast (c.num.sub (c.num.ofInt 1) (c.num.div v.envRtime k.release)))
        (c.num.ofInt 0) v.envLast := if_neg (Bool.eq_false_iff.mp h)

theorem releaseOutput_exact_of_not_pos (hx : c.num = .exact) (hr : k.release ≤ 0) (v : Voice) :
    releaseOutput c k v = 0 := by
  rw [releaseOutput_of_not_pos (by simpa [hx] using hr), ofInt_zero]

theorem releaseOutput_exact_of_pos (hx : c.num = .exact) (hr : 0 < k.release) (v : Voice) :
    releaseOutput c k v = min (max (v.envLast * (1 - v.envRtime / k.release)) 0) v.envLast := by
  rw [releaseOutput_of_pos (by simpa [hx] using hr)]
  simp only [hx, exact_clamp, exact_mul, exact_sub, exact_ofInt, Int.cast_one, Int.cast_zero, exact_div _ hr.ne']

/-- A release output lies between 0 and the value it started from (R79). -/
theorem releaseOutput_mem (hx : c.num = .exact) {v : Voice} (hlast : 0 ≤ v.envLast) :
    0 ≤ releaseOutput c k v ∧ releaseOutput c k v ≤ v.envLast := by
  obtain hr | hr := le_or_gt k.release 0
  · rw [releaseOutput_exact_of_not_pos hx hr]
    exact ⟨le_rfl, hlast⟩
  · rw [releaseOutput_exact_of_pos hx hr]
    exact ⟨le_min (le_max_right _ _) hlast, min_le_right _ _⟩

/-- On one line, the later output is the higher one (R79). -/
theorem attackOutput_mono (hx : c.num = .exact) (ha : 0 < k.attack) {v w : Voice} (hstart : v.envStart = w.envStart)
    (hle : w.envStart ≤ 1) (htime : v.envTime ≤ w.envTime) : attackOutput c k v ≤ attackOutput c k w := by
  rw [attackOutput_exact hx ha, attackOutput_exact hx ha, hstart]
  have hslope := mul_le_mul_of_nonneg_left (div_le_div_of_nonneg_right htime ha.le) (sub_nonneg.mpr hle)
  linarith

/-- On one line down, the later output is the lower one (R79). -/
theorem releaseOutput_anti (hx : c.num = .exact) {v w : Voice} (hlast : v.envLast = w.envLast) (hpos : 0 ≤ w.envLast)
    (htime : v.envRtime ≤ w.envRtime) : releaseOutput c k w ≤ releaseOutput c k v := by
  obtain hr | hr := le_or_gt k.release 0
  · rw [releaseOutput_exact_of_not_pos hx hr, releaseOutput_exact_of_not_pos hx hr]
  · rw [releaseOutput_exact_of_pos hx hr, releaseOutput_exact_of_pos hx hr, hlast]
    have hfrac := div_le_div_of_nonneg_right htime hr.le
    have hline := mul_le_mul_of_nonneg_left (sub_le_sub_left hfrac 1) hpos
    exact min_le_min_right _ (max_le_max_right _ hline)

theorem timeStep_exact (hx : c.num = .exact) (hl : c.legal = true) : timeStep c = 1 / c.sampleRate := by
  rw [timeStep, hx, exact_div _ (Cfg.ranges_of_legal hx hl).sampleRate.ne', exact_ofInt, Int.cast_one]

theorem timeStep_pos (hx : c.num = .exact) (hl : c.legal = true) : 0 < timeStep c := by
  rw [timeStep_exact hx hl]
  exact one_div_pos.mpr (Cfg.ranges_of_legal hx hl).sampleRate

/-! One sample. -/

/-- Settles O36: with no edge the voice is in Idle after step 1; RESET makes every voice Idle. -/
theorem idleEnvelopeStaysAtZero : Obligations.IdleEnvelopeStaysAtZero := by
  refine ⟨fun s v x hruns hx hidle hgate => ?_, fun v hv => ?_⟩
  · have hedge := envEdges_none (c := s.cfg) hgate.symm
    have hstep := envStep_of_idle (k := s.control) ((congrArg Voice.envStage hedge).trans hidle)
    refine ⟨tick s, _, exec_tick_of_runs hruns, tickVoices_getElem? hx, ?_⟩
    rw [voiceStep_env, hstep, hedge]
    exact ⟨rfl, hidle, rfl, rfl, rfl, rfl, rfl⟩
  · rw [List.eq_of_mem_replicate hv]
    rfl

/-- The envelope timer's step (R77, D18). -/
theorem add_timeStep_exact (hx : c.num = .exact) (hl : c.legal = true) (time : NumVal) :
    c.num.add time (timeStep c) = time + 1 / c.sampleRate := by
  rw [timeStep_exact hx hl, hx, exact_add]

/-- Settles O37: on the edge Attack starts at timer 0 from the last output, where its line begins; with `attack <= 0`
it ends at once. -/
theorem risingEdgeStartsFromTheLastOutput : Obligations.RisingEdgeStartsFromTheLastOutput := by
  intro s v x hready hx hgate hlow
  have hnum := hready.exact
  have hedge := envEdges_rising (c := s.cfg) hlow
  have hstage := congrArg Voice.envStage hedge
  have htimer : s.cfg.num.add 0 (timeStep s.cfg) = 1 / s.cfg.sampleRate :=
    (add_timeStep_exact hnum hready.legal 0).trans (zero_add _)
  have hdone : attackDone s.cfg s.control (envEdges s.cfg true x).envTime = true ↔ s.control.attack ≤ 0 := by
    rw [hedge, attackDone_exact s.control hnum, or_self]
  refine ⟨tick s, _, exec_tick_of_runs hready.runs, tickVoices_getElem? hx, ?_⟩
  rw [voiceStep_env, hgate]
  obtain ha | ha := le_or_gt s.control.attack 0
  · rw [envStep_of_attack_done hstage (hdone.mpr ha), hedge]
    exact ⟨rfl, rfl, htimer, rfl, rfl, fun hpos => absurd ha hpos.not_ge,
      fun _ => ⟨rfl, fun hd => decayOutput_exact_of_not_pos hnum hd _, fun hd => decayOutput_exact_of_pos hnum hd _⟩⟩
  · rw [envStep_of_attack_running hstage (Bool.eq_false_iff.mpr (mt hdone.mp ha.not_ge)), hedge]
    have hline : attackOutput s.cfg s.control
        { x with envGate := true, envStage := .attack, envTime := 0, envStart := x.envAtt } = x.envAtt := by
      rw [attackOutput_exact hnum ha, zero_div, mul_zero, add_zero]
    exact ⟨rfl, rfl, htimer, rfl, rfl, fun _ => ⟨rfl, hline⟩, fun hneg => absurd hneg ha.not_ge⟩

/-- Settles O38: a timer below `attack` leaves the voice in Attack, on its line. -/
theorem attackIsALinearRamp : Obligations.AttackIsALinearRamp := by
  intro s v x hready hx hgate hheld hstage htime ha
  have hnum := hready.exact
  have hedge : envEdges s.cfg x.gate x = x := envEdges_none (by rw [hheld, hgate])
  have hrun : attackDone s.cfg s.control x.envTime = false := by
    rw [Bool.eq_false_iff, ne_eq, attackDone_exact s.control hnum]
    exact not_or.mpr ⟨ha.not_ge, htime.not_ge⟩
  have hstep := envStep_of_attack_running ((congrArg Voice.envStage hedge).trans hstage)
    (hedge.symm ▸ hrun : attackDone s.cfg s.control (envEdges s.cfg x.gate x).envTime = false)
  have hline := attackOutput_exact hnum ha x
  refine ⟨tick s, _, exec_tick_of_runs hready.runs, tickVoices_getElem? hx, ?_⟩
  rw [voiceStep_env, hstep, hedge]
  refine ⟨hstage, hline, fun hstart => hline.trans ?_, add_timeStep_exact hnum hready.legal _, rfl, hheld, rfl, rfl⟩
  rw [hstart, zero_add, sub_zero, one_mul]

/-- Settles O40: with the gate held the voice is in DecaySustain after step 1. -/
theorem decaySustainDecaysToSustain : Obligations.DecaySustainDecaysToSustain := by
  intro s v x hready hx hgate hheld hstage
  have hedge : envEdges s.cfg x.gate x = x := envEdges_none (by rw [hheld, hgate])
  have hstep := envStep_of_decaySustain (k := s.control) ((congrArg Voice.envStage hedge).trans hstage)
  refine ⟨tick s, _, exec_tick_of_runs hready.runs, tickVoices_getElem? hx, ?_⟩
  rw [voiceStep_env, hstep, hedge]
  have hdecay (hd : 0 < s.control.decay) := decayOutput_exact_of_pos hready.exact hd x
  refine ⟨hstage, hdecay, fun hd => decayOutput_exact_of_not_pos hready.exact hd x, fun hd htime h0 h1 => ?_,
    add_timeStep_exact hready.exact hready.legal _, hheld, rfl, rfl, rfl⟩
  have hline : 1 - (x.envTime - s.control.attack) / s.control.decay ≤ 0 := by
    rw [sub_nonpos, le_div_iff₀ hd]
    linarith
  exact (hdecay hd).trans (by rw [max_eq_right (hline.trans h0), min_eq_right h1])

/-- Settles O41: the voice is in Release after step 1, with the last output and the timer that the edge gives it. -/
theorem releaseFallsFromTheLastOutput : Obligations.ReleaseFallsFromTheLastOutput := by
  intro s v x hruns hx hgate hstage
  have hedge := envEdges_release (c := s.cfg) hstage
  have hstep := envStep_of_release (k := s.control) (congrArg Voice.envStage hedge)
  rw [hedge] at hstep
  refine ⟨tick s, _, _, _, exec_tick_of_runs hruns, tickVoices_getElem? hx, rfl, rfl, ?_⟩
  rw [voiceStep_env, hgate, hstep]
  refine ⟨rfl, fun hr => releaseOutput_of_not_pos hr _, fun hr => releaseOutput_of_pos hr _, fun hnum hr hlast => ?_⟩
  have hline := releaseOutput_exact_of_pos (k := s.control) hnum hr
  refine ⟨fun hheld => (hline _).trans ?_, fun htime => (hline _).trans ?_⟩
  · simp only [hheld, if_true, ofInt_zero] at hlast ⊢
    rw [zero_div, sub_zero, mul_one, max_eq_left hlast, min_self]
  · rw [max_eq_right, min_eq_left hlast]
    exact mul_nonpos_of_nonneg_of_nonpos hlast (sub_nonpos.mpr ((one_le_div hr).mpr htime))

/-- Settles O42: the output decides the stage, and the timer advances in either. -/
theorem releaseReturnsToIdleAtZero : Obligations.ReleaseReturnsToIdleAtZero := by
  intro s v x hruns hx hgate hstage
  have hedge := envEdges_release (c := s.cfg) hstage
  have hstep := envStep_of_release (k := s.control) (congrArg Voice.envStage hedge)
  rw [hedge] at hstep
  refine ⟨tick s, _, exec_tick_of_runs hruns, tickVoices_getElem? hx, ?_⟩
  rw [voiceStep_env, hgate, hstep]
  exact ⟨rfl, rfl, fun hzero => if_pos hzero, fun hpos => if_neg (Bool.eq_false_iff.mp hpos), rfl, rfl⟩

/-! Two samples in a row. -/

/-- The envelope registers after a TICK are ENV.STEP's. -/
theorem voiceStep_envRegisters (v : Voice) :
    (voiceStep c k v).1.envStage = (envStep c k v.gate v).1.envStage ∧
      (voiceStep c k v).1.envTime = (envStep c k v.gate v).1.envTime ∧
      (voiceStep c k v).1.envRtime = (envStep c k v.gate v).1.envRtime ∧
      (voiceStep c k v).1.envLast = (envStep c k v.gate v).1.envLast ∧
      (voiceStep c k v).1.envAtt = (envStep c k v.gate v).1.envAtt ∧
      (voiceStep c k v).1.envStart = (envStep c k v.gate v).1.envStart ∧
      (voiceStep c k v).1.envGate = (envStep c k v.gate v).1.envGate := by
  rw [voiceStep_env]
  exact ⟨rfl, rfl, rfl, rfl, rfl, rfl, rfl⟩

/-- With the gate held over two TICKs the second one sees no edge (R71). -/
theorem envEdges_voiceStep (v : Voice) :
    envEdges c (voiceStep c k v).1.gate (voiceStep c k v).1 = (voiceStep c k v).1 := by
  refine envEdges_none ?_
  obtain ⟨-, -, -, -, -, -, hmemory⟩ := voiceStep_envRegisters (c := c) (k := k) v
  rw [hmemory, envStep_envGate, voiceStep_gate]

/-- A voice that a TICK leaves in Attack and the next one too: the second output is further along the same line (R74,
R79). -/
theorem voiceStep_attack_mono (hx : c.num = .exact) (hl : c.legal = true) (x : Voice)
    (hstart : InUnit (voiceStep c k x).1.envStart) (hy : (voiceStep c k x).1.envStage = .attack)
    (hz : (voiceStep c k (voiceStep c k x).1).1.envStage = .attack) :
    (voiceStep c k x).1.envAtt ≤ (voiceStep c k (voiceStep c k x).1).1.envAtt := by
  have hnoEdge := envEdges_voiceStep (c := c) (k := k) x
  obtain ⟨hyStage, hyTime, -, -, hyAtt, hyStart, -⟩ := voiceStep_envRegisters (c := c) (k := k) x
  generalize (voiceStep c k x).1 = y at *
  obtain ⟨hzStage, -, -, -, hzAtt, -, -⟩ := voiceStep_envRegisters (c := c) (k := k) y
  obtain ⟨hxAttack, hxRun⟩ := attack_of_envStep_attack (hyStage.symm.trans hy)
  obtain ⟨hyAttack, hyRun⟩ := attack_of_envStep_attack (hzStage.symm.trans hz)
  have ha : 0 < k.attack := by
    refine lt_of_not_ge fun hneg => ?_
    exact absurd ((attackDone_exact k hx _).mpr (.inl hneg)) (Bool.eq_false_iff.mp hyRun)
  rw [envStep_of_attack_running hxAttack hxRun] at hyTime hyAtt hyStart
  rw [envStep_of_attack_running hyAttack hyRun, hnoEdge] at hzAtt
  rw [hyAtt, hzAtt]
  refine attackOutput_mono hx ha hyStart.symm hstart.2 ?_
  rw [hyTime, hx, exact_add]
  exact le_add_of_nonneg_right (timeStep_pos hx hl).le

/-- A voice that a TICK leaves in Release, its gate off: its output is at most the value at the release instant, and the
next one, further along the same line, is no higher (R76, R79). -/
theorem voiceStep_release_anti (hx : c.num = .exact) (hl : c.legal = true) (x : Voice)
    (hlast : 0 ≤ (voiceStep c k x).1.envLast) (hy : (voiceStep c k x).1.envStage = .release) :
    (voiceStep c k (voiceStep c k x).1).1.envAtt ≤ (voiceStep c k x).1.envAtt ∧
      (voiceStep c k x).1.envAtt ≤ (voiceStep c k x).1.envLast ∧
      (voiceStep c k (voiceStep c k x).1).1.envLast = (voiceStep c k x).1.envLast := by
  have hnoEdge := envEdges_voiceStep (c := c) (k := k) x
  obtain ⟨hyStage, -, hyRtime, hyLast, hyAtt, -, -⟩ := voiceStep_envRegisters (c := c) (k := k) x
  generalize (voiceStep c k x).1 = y at *
  obtain ⟨-, -, -, hzLast, hzAtt, -, -⟩ := voiceStep_envRegisters (c := c) (k := k) y
  have hxRelease := release_of_envStep_release (hyStage.symm.trans hy)
  rw [envStep_of_release hxRelease] at hyRtime hyLast hyAtt
  rw [envStep_of_release ((congrArg Voice.envStage hnoEdge).trans hy), hnoEdge] at hzLast hzAtt
  refine ⟨?_, ?_, hzLast⟩
  · rw [hyAtt, hzAtt]
    refine releaseOutput_anti hx hyLast.symm hlast ?_
    rw [hyRtime, hx, exact_add]
    exact le_add_of_nonneg_right (timeStep_pos hx hl).le
  · rw [hyLast] at hlast ⊢
    rw [hyAtt]
    exact (releaseOutput_mem (v := envEdges c x.gate x) hx hlast).2

/-- Settles O43: the second TICK sees no edge, so it goes on along the line of the first. -/
theorem envelopeIsMonotoneInAttackAndRelease : Obligations.EnvelopeIsMonotoneInAttackAndRelease := by
  intro s hready
  refine ⟨tick s, tick (tick s), exec_tick_of_runs hready.runs, exec_tick_of_runs hready.tick.runs,
    fun v x y z hx hy hz => ?_⟩
  have hy' := tickVoices_getElem? hx
  obtain rfl := Option.some.inj (hy'.symm.trans hy)
  obtain rfl := Option.some.inj ((tickVoices_getElem? (s := tick s) hy').symm.trans hz)
  exact ⟨voiceStep_attack_mono hready.exact hready.legal x,
    fun hlast hrelease _ => voiceStep_release_anti hready.exact hready.legal x hlast hrelease⟩

end Sys2Proof.Machine

/-! PROOFS. Notes between two TICKs (spec 41_envelope.md R78). They rewrite note registers alone, of which ENV.STEP
reads the gate alone. -/

namespace Sys2Proof.Machine

/-- ENV.STEP reads no note register: it is given the gate, and passes the others on. -/
theorem envStep_noteRegisters (c : Cfg) (k : Control) (g : Bool) (v : Voice) (gate : Bool) (p : Data7) (f : NumVal)
    (vel : Data7) :
    (envStep c k g { v with gate := gate, pitch := p, freq := f, vel := vel }).1 =
      { (envStep c k g v).1 with gate := gate, pitch := p, freq := f, vel := vel } := by
  have hedge : envEdges c g { v with gate := gate, pitch := p, freq := f, vel := vel } =
      { envEdges c g v with gate := gate, pitch := p, freq := f, vel := vel } := by
    unfold envEdges
    split_ifs <;> rfl
  cases hs : (envEdges c g v).envStage with
  | idle => rw [envStep_of_idle hs, envStep_of_idle (by rw [hedge, hs]), hedge]
  | attack => rw [envStep_of_attack hs, envStep_of_attack (by rw [hedge, hs]), hedge]; rfl
  | decaySustain => rw [envStep_of_decaySustain hs, envStep_of_decaySustain (by rw [hedge, hs]), hedge]; rfl
  | release => rw [envStep_of_release hs, envStep_of_release (by rw [hedge, hs]), hedge]; rfl

/-- Notes leave the configuration and the control registers, and of each voice all but the note registers. -/
theorem execAll_notes {notes : List Instr}
    (hnotes : ∀ i ∈ notes, (∃ chan p, i = .noteOff chan p) ∨ ∃ chan p vel, i = .noteOn chan p vel) {s u : State}
    (h : execAll notes s = .next u) :
    u.cfg = s.cfg ∧ u.control = s.control ∧
      ∀ (v : Nat) (x : Voice), s.voices[v]? = some x → ∃ y, u.voices[v]? = some y ∧
        y = { x with gate := y.gate, pitch := y.pitch, freq := y.freq, vel := y.vel } := by
  induction notes generalizing s with
  | nil =>
    cases h
    exact ⟨rfl, rfl, fun v x hx => ⟨x, hx, rfl⟩⟩
  | cons i notes ih =>
    obtain ⟨hi, hrest⟩ := List.forall_mem_cons.mp hnotes
    have hstep : exec i s = .next (afterEvent i s) ∧ eventControl s.cfg i s.control = s.control := by
      obtain ⟨chan, p, rfl⟩ | ⟨chan, p, vel, rfl⟩ := hi
      · exact ⟨rfl, rfl⟩
      · exact ⟨rfl, rfl⟩
    obtain ⟨hexec, hcontrol⟩ := hstep
    simp only [execAll, hexec] at h
    obtain ⟨hcfg, hctl, hvoices⟩ := ih hrest h
    refine ⟨hcfg, hctl.trans hcontrol, fun v x hx => ?_⟩
    obtain ⟨y, hy, hyx, -⟩ := eventVoices_getElem? s.cfg i hx
    obtain ⟨z, hz, hzy⟩ := hvoices v y hy
    refine ⟨z, hz, hzy.trans ?_⟩
    rw [hyx]

/-- Settles O44: the two voices are one but for their note registers, and the gates agree. -/
theorem envelopeSeesNotesThroughTheGateOnly : Obligations.EnvelopeSeesNotesThroughTheGateOnly := by
  intro notes s u v x x' hready hnotes hexec hx hx' hgate
  obtain ⟨hcfg, hcontrol, hvoices⟩ := execAll_notes hnotes hexec
  obtain ⟨y, hy, hyx⟩ := hvoices v x hx
  obtain rfl := Option.some.inj (hy.symm.trans hx')
  have hready' : u.TickReady :=
    ⟨hcfg ▸ hready.exact, hcfg ▸ hready.legal, by rw [hcfg, hcontrol]; exact hready.cutoff⟩
  refine ⟨tick s, tick u, _, _, exec_tick_of_runs hready.runs, exec_tick_of_runs hready'.runs, tickVoices_getElem? hx,
    tickVoices_getElem? hx', ?_⟩
  rw [hcfg, hcontrol]
  have henv := envStep_noteRegisters s.cfg s.control x.gate x y.gate y.pitch y.freq y.vel
  rw [← hyx, ← hgate] at henv
  rw [voiceStep_env, voiceStep_env, henv, hgate]
  exact ⟨rfl, rfl, rfl, rfl, rfl, rfl, rfl⟩

end Sys2Proof.Machine

/-! PROOFS. The step (spec 10_state.md R13, R29; 60_exceptions.md R140, R144, R148; 70_reset_and_hazards.md R160;
logs 7, 8). -/

namespace Sys2Proof.Machine

/-- A pending command word is decoded and executed (R13). -/
theorem step_command {s : State} {w : CmdWord} {rest : List Transaction} (hp : s.pending = .command w :: rest)
    (hl : s.cfg.legal = true) : step s = exec (decode s.cfg.codes w) { s with pending := rest } := by
  obtain ⟨h, -⟩ | ⟨-, h, -⟩ | ⟨r, h, -⟩ | ⟨w', r, h, -, hs⟩ := step_cases s
  · simp [hp] at h
  · simp [hl] at h
  · simp [hp] at h
  · rw [hp] at h
    cases h
    exact hs

/-- A pending RESET is executed (R160). -/
theorem step_reset {s : State} {rest : List Transaction} (hp : s.pending = .reset :: rest) (hl : s.cfg.legal = true) :
    step s = .next (resetTransaction { s with pending := rest }) := by
  obtain ⟨h, -⟩ | ⟨-, h, -⟩ | ⟨r, h, -, hs⟩ | ⟨w', r, h, -⟩ := step_cases s
  · simp [hp] at h
  · simp [hl] at h
  · rw [hp] at h
    cases h
    exact hs
  · simp [hp] at h

/-- Settles O7: the oldest transaction is the command word. -/
theorem stepRunsTheDecodedCommand : Obligations.StepRunsTheDecodedCommand := fun _ _ _ => step_command

/-- Settles O8: the other three cases of a step have a pending transaction. -/
theorem idleStepChangesNothing : Obligations.IdleStepChangesNothing := by
  intro s hp
  obtain ⟨-, hs⟩ | ⟨h, -⟩ | ⟨r, h, -⟩ | ⟨w, r, h, -⟩ := step_cases s
  · exact hs
  · exact absurd hp h
  · simp [hp] at h
  · simp [hp] at h

/-- Settles O13: TICK answers in three ways, told apart by the two checks. -/
theorem tickRefusesOutOfSpecStatesByName : Obligations.TickRefusesOutOfSpecStatesByName := by
  intro s
  obtain ⟨hruns, -⟩ | ⟨hcutoff, h⟩ | ⟨hcutoff, -, h⟩ := exec_tick_cases s
  · exact ⟨fun hc => absurd hruns.cutoff (by simp [hc]), fun _ hp => absurd hruns.phases (by simp [hp])⟩
  · exact ⟨fun _ => h, fun hc => absurd hc (by simp [hcutoff])⟩
  · exact ⟨fun hc => absurd hcutoff (by simp [hc]), fun _ _ => h⟩

/-- Settles O12: TICK alone stops, and the reference `NUM` keeps every phase in range. -/
theorem stopsOnlyOutsideTheSpec : Obligations.StopsOnlyOutsideTheSpec := by
  intro s
  obtain ⟨-, hs⟩ | ⟨-, hl, hs⟩ | ⟨rest, -, -, hs⟩ | ⟨w, rest, -, hl, hs⟩ := step_cases s
  · exact .inl ⟨_, hs⟩
  · exact .inr (.inl ⟨hs, hl⟩)
  · exact .inl ⟨_, hs⟩
  · by_cases hi : decode s.cfg.codes w = .tick
    · rw [hi] at hs
      obtain ⟨-, h⟩ | ⟨hc, h⟩ | ⟨-, hp, h⟩ := exec_tick_cases { s with pending := rest }
      · exact .inl ⟨_, hs.trans h⟩
      · exact .inr (.inr (.inl ⟨hs.trans h, hc⟩))
      · refine .inr (.inr (.inr ⟨hs.trans h, fun hx => ?_⟩))
        exact absurd (tickPhasesInRange_exact (s := { s with pending := rest }) hx hl) (by simp [hp])
    · exact .inl ⟨_, hs.trans (exec_eq_afterEvent hi _)⟩

@[simp] theorem controlReset_oscmix_length {c : Cfg} (h : 2 ≤ c.nwaves) :
    (Control.reset c).oscmix.length = c.nwaves := by
  simp only [Control.reset, List.length_cons, List.length_replicate]
  omega

/-- Settles O9: RESET writes `Voice.reset`, `Control.reset`, `Chorus.reset` and `Delay.reset`. -/
theorem resetGivesEveryRegisterItsResetValue : Obligations.ResetGivesEveryRegisterItsResetValue := by
  intro s rest hp hl
  have hvoices : ∀ v ∈ List.replicate s.cfg.nvoices Voice.reset, v = Voice.reset := fun v => List.eq_of_mem_replicate
  have hweights (w : Nat) (h1 : 1 ≤ w) (hw : w < s.cfg.nwaves) : (Control.reset s.cfg).oscmix[w]? = some 0 := by
    obtain ⟨n, rfl⟩ := Nat.exists_eq_add_of_le' h1
    have hn : n < s.cfg.nwaves - 1 := by omega
    simp [Control.reset, hn]
  refine ⟨_, step_reset hp hl, rfl, rfl, rfl, by simp, fun v hv => ?_, rfl, rfl, rfl, rfl,
    controlReset_oscmix_length (Cfg.sizes_of_legal hl).nwaves, rfl, hweights, rfl, rfl, rfl, rfl, ?_, ?_, fun _ => rfl,
    rfl, rfl, fun _ => rfl⟩
  · rw [hvoices v hv]
    exact ⟨rfl, rfl, rfl, rfl, rfl, rfl, rfl, rfl, rfl, rfl, rfl, rfl, rfl, rfl, rfl, rfl⟩
  · exact List.length_replicate
  · exact fun p hphase => List.eq_of_mem_replicate hphase

end Sys2Proof.Machine

/-! PROOFS. The shape of the state (spec 10_state.md R15, R16, R25, R26; 20_memory.md R42; decision D8, log 16). -/

namespace Sys2Proof.Machine

/-- The state after RESET has the sizes of a legal configuration. -/
theorem shape_resetWith {c : Cfg} (hl : c.legal = true) : (State.resetWith c).Shape := by
  have hz := Cfg.sizes_of_legal hl
  exact {
    voices := List.length_replicate, oscmix := controlReset_oscmix_length hz.nwaves
    lfoPhase := List.length_replicate, wc := Nat.zero_lt_of_lt hz.chLen, chBuf := Mem.Within_nil _
    head := Nat.zero_lt_of_lt hz.dlCap, len := Nat.zero_le _, dlBuf := Mem.Within_nil _ }

/-- The host's lists are no part of the shape. -/
theorem State.Shape.withLists {s : State} (h : s.Shape) (pending : List Transaction) (outputs : List NumVal) :
    State.Shape { s with pending := pending, outputs := outputs } := { h with }

theorem eventControl_oscmix_length {c : Cfg} (i : Instr) {k : Control} (h : k.oscmix.length = c.nwaves) :
    (eventControl c i k).oscmix.length = c.nwaves := by
  cases i with
  | ccOscmix chan val => exact mixOperand_length c val
  | _ => exact h

/-- A command that is no TICK rewrites the lists at their sizes. -/
theorem State.Shape.afterEvent {s : State} (h : s.Shape) (i : Instr) : (afterEvent i s).Shape :=
  { h with
    voices := (eventVoices_length s.cfg i s.voices).trans h.voices
    oscmix := eventControl_oscmix_length i h.oscmix }

/-- TICK steps the voices by a map; chorus and delay keep their cursors and rings (R25, R26, R42). -/
theorem State.Shape.tick {s : State} (h : s.Shape) (hl : s.cfg.legal = true) : (tick s).Shape := by
  obtain ⟨hwc, hphases, hchBuf⟩ := choStep_shape (k := s.control) hl h.wc h.lfoPhase h.chBuf (tickSum s)
  obtain ⟨hhead, hlen, hdlBuf⟩ := dlyStep_shape h.head h.len h.dlBuf (tickChorus s).2
  exact {
    voices := (tickVoices_length s).trans h.voices, oscmix := h.oscmix, lfoPhase := hphases, wc := hwc
    chBuf := hchBuf, head := hhead, len := hlen, dlBuf := hdlBuf }

theorem State.Shape.exec {s t : State} (h : s.Shape) (hl : s.cfg.legal = true) {i : Instr} (he : exec i s = .next t) :
    t.Shape := by
  by_cases hi : i = .tick
  · subst hi
    rw [tick_of_exec he]
    exact h.tick hl
  · rw [exec_eq_afterEvent hi] at he
    cases he
    exact h.afterEvent i

/-- Settles O56: RESET makes the shape, every command keeps it. -/
theorem stepKeepsTheShape : Obligations.StepKeepsTheShape := by
  intro s t h hstep
  obtain ⟨-, hs⟩ | ⟨-, -, hs⟩ | ⟨rest, -, hl, hs⟩ | ⟨w, rest, -, hl, hs⟩ := step_cases s <;> rw [hs] at hstep
  · cases hstep
    exact h
  · cases hstep
  · cases hstep
    exact (shape_resetWith hl).withLists rest s.outputs
  · exact (h.withLists rest s.outputs).exec hl hstep

end Sys2Proof.Machine

/-! PROOFS. The invariant of the block under exact arithmetic (spec 70_reset_and_hazards.md R162; decisions D8, D12,
D14, D19, D21, D22, D27). A voice stays legal through its gate edge, and from the stage that the edge leaves through
ENV.STEP; a control change writes an operand in its range; the phases are residues. -/

namespace Sys2Proof.Machine

variable {c : Cfg} {k : Control}

/-! The voices. -/

theorem inUnit_zero : InUnit 0 := ⟨le_rfl, zero_le_one⟩

theorem inUnit_one : InUnit 1 := ⟨zero_le_one, le_rfl⟩

/-- A voice after RESET (R29). -/
theorem voiceReset_legal (hs : 1 ≤ c.tableSize) : Voice.reset.Legal c where
  freq := le_rfl
  phase := ⟨le_rfl, Nat.cast_pos.mpr hs⟩
  time := le_rfl
  rtime := le_rfl
  last := inUnit_zero
  att := inUnit_zero
  start := inUnit_zero
  edge := by simp [Voice.reset]
  idle := fun _ => rfl
  released := fun _ => le_rfl

/-- Note registers carry one range, the frequency's. -/
theorem Voice.Legal.withNoteRegisters {x : Voice} (h : x.Legal c) (gate : Bool) (p : Data7) {f : NumVal} (hf : 0 ≤ f)
    (vel : Data7) : Voice.Legal c { x with gate := gate, pitch := p, freq := f, vel := vel } :=
  { h with freq := hf }

/-- The edge moves the last output, which is in `[0, 1]`, and sets the stage that the edge memory tells (R71). -/
theorem Voice.Legal.envEdges {x : Voice} (h : x.Legal c) (g : Bool) : (envEdges c g x).Legal c := by
  cases hg : x.envGate <;> cases g
  · rw [envEdges_none hg]
    exact h
  · rw [envEdges_rising hg]
    exact { h with time := le_rfl, start := h.att, edge := by simp, idle := by simp, released := by simp }
  · rw [envEdges_falling hg]
    exact { h with rtime := le_rfl, last := h.att, edge := by simp, idle := by simp, released := fun _ => le_rfl }
  · rw [envEdges_none hg]
    exact h

/-- The Attack line from a start in `[0, 1]` to 1 (R74). -/
theorem attackOutput_inUnit (hx : c.num = .exact) {x : Voice} (hstart : InUnit x.envStart) (htime : 0 ≤ x.envTime)
    (hrun : attackDone c k x.envTime = false) : InUnit (attackOutput c k x) := by
  rw [Bool.eq_false_iff, ne_eq, attackDone_exact k hx, not_or, not_le, not_le] at hrun
  obtain ⟨ha, hlt⟩ := hrun
  rw [attackOutput_exact hx ha]
  have hfrac : x.envStart + (1 - x.envStart) * (x.envTime / k.attack) =
      x.envStart + x.envTime / k.attack * (1 - x.envStart) := by ring
  rw [hfrac]
  exact interpolate_mem (div_nonneg htime ha.le) ((div_le_one ha).mpr hlt.le) hstart inUnit_one

/-- The decay is cut off at `sustain` and at 1 (R75, D22). -/
theorem decayOutput_inUnit (hx : c.num = .exact) (hsustain : InUnit k.sustain) (x : Voice) :
    InUnit (decayOutput c k x) := by
  obtain hd | hd := le_or_gt k.decay 0
  · rw [decayOutput_exact_of_not_pos hx hd]
    exact hsustain
  · rw [decayOutput_exact_of_pos hx hd]
    exact ⟨le_min zero_le_one (hsustain.1.trans (le_max_right _ _)), min_le_left _ _⟩

/-- ENV.STEP keeps a voice legal, stage by stage (R72 to R77). -/
theorem Voice.Legal.envStep (hx : c.num = .exact) (hl : c.legal = true) (hsustain : InUnit k.sustain) {x : Voice}
    (h : x.Legal c) (g : Bool) : (envStep c k g x).1.Legal c := by
  have he := h.envEdges g
  have hadvance {time : NumVal} (ht : 0 ≤ time) : 0 ≤ c.num.add time (timeStep c) := by
    rw [hx, exact_add]
    exact add_nonneg ht (timeStep_pos hx hl).le
  cases hs : (Machine.envEdges c g x).envStage with
  | idle =>
    rw [envStep_of_idle hs, ofInt_zero]
    exact { he with att := inUnit_zero, idle := fun _ => rfl, released := by simp [hs] }
  | attack =>
    cases hdone : attackDone c k (Machine.envEdges c g x).envTime
    · rw [envStep_of_attack_running hs hdone]
      exact { he with
        time := hadvance he.time
        att := attackOutput_inUnit hx he.start he.time hdone
        idle := by simp [hs]
        released := by simp [hs] }
    · rw [envStep_of_attack_done hs hdone]
      exact { he with
        time := hadvance he.time
        att := decayOutput_inUnit hx hsustain _
        edge := by simp [he.edge, hs]
        idle := by simp
        released := by simp }
  | decaySustain =>
    rw [envStep_of_decaySustain hs]
    exact { he with
      time := hadvance he.time
      att := decayOutput_inUnit hx hsustain _
      idle := by simp [hs]
      released := by simp [hs] }
  | release =>
    obtain ⟨hlow, hhigh⟩ := releaseOutput_mem (k := k) hx he.last.1
    rw [envStep_of_release hs]
    refine { he with
      rtime := hadvance he.rtime
      att := ⟨hlow, hhigh.trans he.last.2⟩
      edge := ?_
      idle := ?_
      released := fun _ => hhigh }
    · have hmemory := he.edge
      rw [hs] at hmemory
      dsimp only
      split <;> simpa using hmemory
    · dsimp only
      split
      · next hzero => simpa [hx] using hzero
      · simp

/-- A voice stays legal in a TICK: the envelope by ENV.STEP, the phase by its modulo (R65, R130). -/
theorem Voice.Legal.voiceStep (hx : c.num = .exact) (hl : c.legal = true) (hsustain : InUnit k.sustain) {x : Voice}
    (h : x.Legal c) : (voiceStep c k x).1.Legal c := by
  rw [voiceStep_env]
  exact { h.envStep hx hl hsustain x.gate with phase := phaseAdvance_inTable hx hl _ _ }

theorem pitchFrequency_nonneg (hx : c.num = .exact) (hl : c.legal = true) (p : Data7) : 0 ≤ pitchFrequency c p := by
  refine (Cfg.ranges_of_legal hx hl).pitchFreq _ (romRead_mem ?_)
  rw [(Cfg.sizes_of_legal hl).pitchFreq]
  exact p.isLt

/-- A command that is no TICK keeps every voice legal (R90, R91). -/
theorem eventVoices_legal (hx : c.num = .exact) (hl : c.legal = true) (i : Instr) {vs : List Voice}
    (h : ∀ x ∈ vs, x.Legal c) : ∀ y ∈ eventVoices c i vs, y.Legal c := by
  intro y hy
  obtain ⟨v, hv⟩ := List.mem_iff_getElem?.mp hy
  have hlt : v < vs.length := by
    rw [← eventVoices_length c i vs]
    exact (List.getElem?_eq_some_iff.mp hv).1
  obtain ⟨z, hz, hzx, hfreq⟩ := eventVoices_getElem? c i (List.getElem?_eq_getElem hlt)
  obtain rfl := Option.some.inj (hz.symm.trans hv)
  have hlegal := h _ (List.getElem_mem hlt)
  rw [hzx]
  refine hlegal.withNoteRegisters _ _ ?_ _
  obtain hsame | ⟨p, hp⟩ := hfreq
  · rw [hsame]
    exact hlegal.freq
  · rw [hp]
    exact pitchFrequency_nonneg hx hl p

/-! The control registers. -/

/-- The control registers after RESET (R29, D12). -/
theorem controlReset_legal (hx : c.num = .exact) (hl : c.legal = true) : (Control.reset c).Legal c where
  attack := le_rfl
  decay := le_rfl
  sustain := by simpa [Control.reset, hx] using inUnit_one
  release := le_rfl
  oscmixLen := controlReset_oscmix_length (Cfg.sizes_of_legal hl).nwaves
  oscmix := by
    intro m hm
    obtain rfl | hm := List.mem_cons.mp hm
    · simpa [hx] using inUnit_one
    · rw [List.eq_of_mem_replicate hm]
      exact inUnit_zero
  cutoff := by
    simp only [Control.reset, hx, exact_ofRat]
    norm_num
  resonance := ⟨le_rfl, zero_lt_one⟩
  chorusmix := inUnit_zero

theorem timeOperand_nonneg (hx : c.num = .exact) (hl : c.legal = true) (val : Data7) : 0 ≤ timeOperand c val :=
  (Cfg.ranges_of_legal hx hl).ccTime _ (List.mem_of_getElem? (ccTime_getElem?_some hl val))

theorem levelOperand_inUnit (hx : c.num = .exact) (val : Data7) : InUnit (levelOperand c val) := by
  rw [levelOperand, hx, exact_ofRat]
  exact level_inUnit val

theorem cutoffOperand_mem (hx : c.num = .exact) (val : Data7) : 0 < cutoffOperand c val ∧ cutoffOperand c val < 1 := by
  rw [cutoffOperand, hx, exact_ofRat]
  exact cutoff_mem val

theorem resonanceOperand_mem (hx : c.num = .exact) (val : Data7) :
    0 ≤ resonanceOperand c val ∧ resonanceOperand c val < 1 := by
  rw [resonanceOperand, hx, exact_ofRat]
  exact resonance_mem val

/-- A control change writes an operand in its register's range (R24). -/
theorem Control.Legal.eventControl (hx : c.num = .exact) (hl : c.legal = true) {k : Control} (h : k.Legal c)
    (i : Instr) : (eventControl c i k).Legal c := by
  cases i with
  | ccAttack chan val => exact { h with attack := timeOperand_nonneg hx hl val }
  | ccDecay chan val => exact { h with decay := timeOperand_nonneg hx hl val }
  | ccSustain chan val => exact { h with sustain := levelOperand_inUnit hx val }
  | ccRelease chan val => exact { h with release := timeOperand_nonneg hx hl val }
  | ccOscmix chan val =>
    exact { h with
      oscmixLen := mixOperand_length c val
      oscmix := mixOperand_inUnit hx (Cfg.sizes_of_legal hl).nwaves val }
  | ccCutoff chan val => exact { h with cutoff := cutoffOperand_mem hx val }
  | ccResonance chan val => exact { h with resonance := resonanceOperand_mem hx val }
  | ccChorusmix chan val => exact { h with chorusmix := levelOperand_inUnit hx val }
  | _ => exact h

/-! The block. -/

/-- The state after construction and RESET (R29, R162). -/
theorem inv_resetWith (hx : c.num = .exact) (hl : c.legal = true) : (State.resetWith c).Inv where
  exact := hx
  legal := hl
  shape := shape_resetWith hl
  voices := by
    intro v hv
    rw [List.eq_of_mem_replicate hv]
    exact voiceReset_legal (Cfg.sizes_of_legal hl).tableSize
  control := controlReset_legal hx hl
  lfos := by
    intro p hp
    rw [List.eq_of_mem_replicate hp]
    exact ⟨le_rfl, Nat.cast_pos.mpr (Cfg.sizes_of_legal hl).tableSize⟩

/-- Settles O54: the reset values are legal, and those of a silent block. -/
theorem resetMeetsTheInvariantAndIsSilent : Obligations.ResetMeetsTheInvariantAndIsSilent := by
  refine fun c hx hl => ⟨inv_resetWith hx hl, fun v hv => ?_, rfl, rfl⟩
  rw [List.eq_of_mem_replicate hv]
  exact ⟨rfl, rfl, rfl⟩

theorem State.Inv.withLists {s : State} (h : s.Inv) (pending : List Transaction) (outputs : List NumVal) :
    State.Inv { s with pending := pending, outputs := outputs } :=
  { h with shape := h.shape.withLists pending outputs }

/-- A state that meets the invariant is ready for TICK: its `cutoff` is in `(0, 1)`. -/
theorem State.Inv.tickReady {s : State} (h : s.Inv) : s.TickReady where
  exact := h.exact
  legal := h.legal
  cutoff := by simp [cutoffInSpec, h.exact, h.control.cutoff.1, h.control.cutoff.2]

/-- The chorus's phases stay in the table: they stand, or are advanced (R65, R111). -/
theorem choStep_lfos_inTable (hx : c.num = .exact) (hl : c.legal = true) {ch : Chorus}
    (h : ∀ p ∈ ch.lfoPhase, InTable c p) (x : NumVal) : ∀ p ∈ (choStep c k ch x).1.lfoPhase, InTable c p := by
  cases hb : chorusBypassed c k
  · rw [choStep_active hb]
    exact lfoAdvanceAll_inTable hx hl
  · rw [choStep_bypass hb]
    exact h

/-- TICK keeps the invariant (R162). -/
theorem State.Inv.tick {s : State} (h : s.Inv) : (tick s).Inv where
  exact := h.exact
  legal := h.legal
  shape := h.shape.tick h.legal
  voices := by
    intro v hv
    obtain ⟨x, hmem, rfl⟩ := List.mem_map.mp hv
    exact (h.voices x hmem).voiceStep h.exact h.legal h.control.sustain
  control := h.control
  lfos := choStep_lfos_inTable h.exact h.legal h.lfos _

/-- Every other command keeps the invariant (R162). -/
theorem State.Inv.afterEvent {s : State} (h : s.Inv) (i : Instr) : (afterEvent i s).Inv where
  exact := h.exact
  legal := h.legal
  shape := h.shape.afterEvent i
  voices := eventVoices_legal h.exact h.legal i h.voices
  control := h.control.eventControl h.exact h.legal i
  lfos := h.lfos

/-- Every command completes in a state that meets the invariant, and keeps it. -/
theorem State.Inv.exec {s : State} (h : s.Inv) (i : Instr) : ∃ t, exec i s = .next t ∧ t.Inv := by
  by_cases hi : i = .tick
  · subst hi
    exact ⟨_, exec_tick_of_runs h.tickReady.runs, h.tick⟩
  · exact ⟨_, exec_eq_afterEvent hi s, h.afterEvent i⟩

/-- A step of a state that meets the invariant takes the oldest transaction, completes, and keeps the invariant. -/
theorem State.Inv.step {s : State} (h : s.Inv) : ∃ t, step s = .next t ∧ t.Inv ∧ t.pending = s.pending.tail := by
  obtain ⟨hp, hs⟩ | ⟨-, hl, -⟩ | ⟨rest, hp, hl, hs⟩ | ⟨w, rest, hp, -, hs⟩ := step_cases s
  · exact ⟨s, hs, h, by rw [hp, List.tail_nil]⟩
  · exact absurd h.legal (by simp [hl])
  · exact ⟨_, hs, (inv_resetWith h.exact hl).withLists rest s.outputs, by rw [hp]; rfl⟩
  · obtain ⟨t, ht, hinv⟩ := (h.withLists rest s.outputs).exec (decode s.cfg.codes w)
    exact ⟨t, hs.trans ht, hinv, by rw [hp]; exact exec_pending ht⟩

/-- Settles O55: the next state of a step is the one that meets the invariant. -/
theorem stepKeepsTheInvariant : Obligations.StepKeepsTheInvariant := by
  intro s t h hstep
  obtain ⟨t', hs, hinv, -⟩ := h.step
  rw [hs] at hstep
  cases hstep
  exact hinv

/-- As many steps as `n` transactions are pending execute them all. -/
theorem run_completes (n : Nat) : ∀ s : State, s.Inv → s.pending.length = n →
    ∃ t, core.run n s = .next t ∧ t.Inv ∧ t.pending = [] := by
  induction n with
  | zero => exact fun s h hn => ⟨s, rfl, h, List.eq_nil_of_length_eq_zero hn⟩
  | succ n ih =>
    intro s h hn
    obtain ⟨t, hs, hinv, hp⟩ := h.step
    have hrest : t.pending.length = n := by rw [hp, List.length_tail, hn, Nat.add_sub_cancel]
    obtain ⟨u, hu, huInv, huPending⟩ := ih t hinv hrest
    refine ⟨u, ?_, huInv, huPending⟩
    have hcore : core.step s = .next t := hs
    simp only [Host.Core.run, hcore]
    exact hu

/-- Settles O57: each step takes one transaction and keeps the invariant. -/
theorem everyIssuedTransactionCompletes : Obligations.EveryIssuedTransactionCompletes :=
  fun s h => run_completes s.pending.length s h rfl

end Sys2Proof.Machine

/-! PROOFS. The oscillator (spec 40_oscillator.md R60 to R65; decisions D4, D14, D15, D16). -/

namespace Sys2Proof.Machine

variable {c : Cfg} {k : Control}

/-- Settles O31: the phase is OSC.STEP's; frequency 0 advances by no table. -/
theorem oscillatorPhaseAdvancesModuloTheTable : Obligations.OscillatorPhaseAdvancesModuloTheTable := by
  intro s v x hready hx
  have hl := hready.legal
  refine ⟨tick s, _, exec_tick_of_runs hready.runs, tickVoices_getElem? hx, ?_⟩
  rw [voiceStep_oscPhase]
  refine ⟨⟨_, rfl, phaseAdvance_exact hready.exact (Cfg.sizes_of_legal hl).tableSize
    (Cfg.ranges_of_legal hready.exact hl).sampleRate _ _⟩, phaseAdvance_inTable hready.exact hl _ _, fun hf hin => ?_⟩
  have hstill := phaseAdvance_mul_sampleRate hready.exact hl hin 0
  rwa [Nat.cast_zero, zero_mul, ← hf] at hstill

/-- Settles O32: two advances are one by the sum, and a whole number of tables is none. -/
theorem phaseAdvancesAddUp : Obligations.PhaseAdvancesAddUp :=
  fun _ phase f g n hx hl =>
    ⟨phaseAdvance_phaseAdvance hx hl phase f g, fun h => phaseAdvance_mul_sampleRate hx hl h n⟩

/-- Settles O33: a convex combination of the two samples, with fraction 0 at a whole phase. -/
theorem tableReadInterpolatesItsNeighbours : Obligations.TableReadInterpolatesItsNeighbours := by
  intro c T phase a b hx hin ha hb
  have hread : tableRead c T phase = a + (phase - (⌊phase⌋ : Rat)) * (b - a) := by
    rw [tableRead_exact hx T hin, romRead_eq ha, romRead_eq hb]
  obtain ⟨hlow, hhigh⟩ := interpolate_mem (fract_mem phase).1 (fract_mem phase).2
    ⟨min_le_left a b, le_max_left a b⟩ ⟨min_le_right a b, le_max_right a b⟩
  rw [hread]
  refine ⟨rfl, hlow, hhigh, fun hwhole => ?_⟩
  rw [hwhole, sub_self, zero_mul, add_zero]

/-- Settles O34: the band counts the thresholds reached, which ascend. -/
theorem bandIsTheNumberOfThresholdsReached : Obligations.BandIsTheNumberOfThresholdsReached := by
  refine fun c f hx hl => ⟨bandSelect_lt hl f, fun n t ht => ?_⟩
  have hcount := lt_countP_le_iff (Cfg.thresh_pairwise hx hl) f n t ht
  rw [bandSelect, hx]
  exact hcount

/-- A sum over pairs is one over their index. -/
theorem zipWith_eq_map_range {α β γ : Type} (f : α → β → γ) (a : α) (b : β) {xs : List α} {ys : List β} {n : Nat}
    (hxs : xs.length = n) (hys : ys.length = n) :
    List.zipWith f xs ys = (List.range n).map (fun i => f (xs.getD i a) (ys.getD i b)) := by
  refine List.ext_getElem (by simp [hxs, hys]) fun i hi _ => ?_
  have hi' : i < n := by simpa [hxs, hys] using hi
  simp [List.getD, hxs, hys, hi']

/-- The tables of the selected band, all `NWAVES` of them (R6, R62). -/
theorem selectedBand (hl : c.legal = true) (f : NumVal) :
    c.wt[bandSelect c f]? = some (bandTables c (bandSelect c f)) ∧
      (bandTables c (bandSelect c f)).length = c.nwaves := by
  have hz := Cfg.sizes_of_legal hl
  have hlt : bandSelect c f < c.wt.length := hz.wt ▸ bandSelect_lt hl f
  have hband : bandTables c (bandSelect c f) = c.wt[bandSelect c f] := by simp [bandTables, List.getD, hlt]
  rw [hband]
  exact ⟨List.getElem?_eq_getElem hlt, (hz.bands _ (List.getElem_mem hlt)).1⟩

/-- Settles O35: weights and tables are paired by wave, `NWAVES` of each. -/
theorem oscillatorSumsItsWaves : Obligations.OscillatorSumsItsWaves := by
  intro c k x hx hl hmix
  obtain ⟨hband, hlen⟩ := selectedBand hl x.freq
  refine ⟨_, hband, oscStep_voice k x, ?_⟩
  rw [oscStep, hx, exact_sum, zipWith_eq_map_range _ 0 [] hmix hlen]
  rfl

end Sys2Proof.Machine

/-! PROOFS. The filter (spec 42_filter.md R83, R84). -/

namespace Sys2Proof.Machine

variable {c : Cfg} {k : Control}

/-- Without a filter ENV.STEP sees what OSC.STEP leaves (R84). -/
theorem voiceFiltered_of_no_filter (h : c.filterEn = false) (v : Voice) :
    voiceFiltered c k v = oscStep c k v := by
  rw [voiceFiltered, voiceFilter, h]
  rfl

/-- Settles O46: OSC.STEP moves no stage, and its sample is what the envelope scales. -/
theorem filterOffPassesTheSampleThrough : Obligations.FilterOffPassesTheSampleThrough := by
  intro s v x hruns hoff hx
  refine ⟨tick s, _, exec_tick_of_runs hruns, tickVoices_getElem? hx, ?_⟩
  have hcontribution := voiceStep_contribution s.cfg s.control x
  rw [voiceFiltered_of_no_filter hoff] at hcontribution
  rw [hcontribution, voiceStep_env, voiceFiltered_of_no_filter hoff]
  exact ⟨rfl, rfl, rfl, rfl, rfl⟩

/-- Without resonance there is no feedback (R80). -/
theorem filterFeedback_of_no_resonance (hx : c.num = .exact) (hcut : k.cutoff < 1) (hr : k.resonance = 0) :
    filterFeedback c k = 0 := by
  rw [filterFeedback, hr, hx, exact_div _ (by simpa using (sub_pos.mpr hcut).ne'), zero_div, exact_add, add_zero]

/-- Settles O47: without feedback each stage is one pole on the new value of the stage before it. -/
theorem filterIsPassiveAtZeroResonance : Obligations.FilterIsPassiveAtZeroResonance := by
  intro c k x signal M hx h0 h1 hr hsignal hs0 hs1 hs2 hs3
  obtain ⟨e0, e1, e2, e3⟩ := fltProc_stages (c := c) (k := k) x signal
  rw [filterFeedback_of_no_resonance hx h1 hr] at e0
  simp only [hx, exact_add, exact_mul, exact_sub, zero_mul, add_zero] at e0 e1 e2 e3
  have hpole {s y : Rat} (hs : |s| ≤ M) (hy : |y| ≤ M) : |s + k.cutoff * (y - s)| ≤ M :=
    abs_onePole_le h0.le h1.le hs hy
  have hb0 := e0 ▸ hpole hs0 hsignal
  have hb1 := e1 ▸ hpole hs1 hb0
  have hb2 := e2 ▸ hpole hs2 hb1
  have hb3 := e3 ▸ hpole hs3 hb2
  exact ⟨hb0, hb1, hb2, hb3, hb3⟩

end Sys2Proof.Machine

/-! PROOFS. The chorus in a TICK (spec 44_chorus.md R110, R111, R113; decisions D7, D16, D17, D23, D25). -/

namespace Sys2Proof.Machine

variable {c : Cfg} {k : Control}

/-- CHO.STEP leaves every element but the one at the cursor (R110, R111). -/
theorem choStep_read_ne (ch : Chorus) (x : NumVal) {i : Nat} (hi : i ≠ ch.wc) :
    (choStep c k ch x).1.buf.read i = ch.buf.read i := by
  rw [choStep_buf, Mem.read_write_ne x hi]

/-- Settles O48: the bypassed CHO.STEP stores and passes on its input. -/
theorem bypassedChorusReturnsItsInput : Obligations.BypassedChorusReturnsItsInput := by
  intro s hruns hw hbypass
  have hchorus : tickChorus s = ({ s.chorus with buf := s.chorus.buf.write s.chorus.wc (tickSum s) }, tickSum s) :=
    choStep_bypass hbypass _ _
  have hsum : (tickChorus s).2 = tickSum s := congrArg Prod.snd hchorus
  refine ⟨tick s, exec_tick_of_runs hruns, ?_, ?_, choStep_read_cursor _ _ hw _, fun i => choStep_read_ne _ _, ?_, ?_⟩
  · rw [tick_chorus, hchorus]
  · rw [tick_chorus, hchorus]
  · rw [tick_delay, tickDelay, hsum]
  · rw [tick_outputs, tickOutput, tickDelay, hsum]

/-- A tap interpolates the elements `floor(off)` and `floor(off) + 1` behind the cursor (R110, D16). -/
theorem tapRead_exact (hx : c.num = .exact) (buf : Mem) (wc : Nat) (off : NumVal) :
    tapRead c buf wc off =
      buf.read (((wc : Int) - ⌊off⌋) % (c.chLen : Int)).toNat +
        (off - (⌊off⌋ : Rat)) * (buf.read (((wc : Int) - ⌊off⌋ - 1) % (c.chLen : Int)).toNat -
          buf.read (((wc : Int) - ⌊off⌋) % (c.chLen : Int)).toNat) := by
  rw [tapRead, hx]
  rfl

/-- The output of the active chorus under exact arithmetic (R110, R113). -/
theorem choStep_output_exact (hx : c.num = .exact) (hl : c.legal = true) (h : chorusBypassed c k = false)
    (ch : Chorus) (x : NumVal) :
    (choStep c k ch x).2 =
      x * (1 - k.chorusmix) +
        ((choStep c k ch x).1.lfoPhase.map
          (fun p => tapRead c (choStep c k ch x).1.buf ch.wc (c.chBase + lfoValue c p * c.chDepth))).sum /
          (c.chN : Rat) * k.chorusmix := by
  have hN : (c.chN : Rat) ≠ 0 := Nat.cast_ne_zero.mpr (Nat.one_le_iff_ne_zero.mp (Cfg.sizes_of_legal hl).chN)
  simp only [choStep_active h, tapOffset, hx, exact_add, exact_mul, exact_sub, exact_sum, exact_ofInt, Int.cast_one,
    Int.cast_natCast, exact_div _ hN]

/-- Settles O49: CHO.STEP above the threshold, its taps read from the written ring. -/
theorem activeChorusCrossfadesTheMeanOfItsTaps : Obligations.ActiveChorusCrossfadesTheMeanOfItsTaps := by
  intro s hready hshape hmix
  have hx := hready.exact
  have hactive : chorusBypassed s.cfg s.control = false := by simpa [chorusBypassed, hx] using hmix
  have hchorus := choStep_active hactive s.chorus (tickSum s)
  refine ⟨tick s, (tickChorus s).2, tapRead s.cfg (tick s).chorus.buf s.chorus.wc, exec_tick_of_runs hready.runs, ?_,
    ?_, fun j m p hm hp => ?_, choStep_read_cursor _ _ hshape.chBuf.1 _, fun i => choStep_read_ne _ _,
    fun off a b ha hb => ?_, choStep_output_exact hx hready.legal hactive _ _, rfl, ?_⟩
  · exact congrArg (fun r => r.1.wc) hchorus
  · obtain ⟨-, hphases, -⟩ := choStep_shape hready.legal hshape.wc hshape.lfoPhase hshape.chBuf (tickSum s)
    exact hphases
  · have hadvance := lfoAdvanceAll_getElem? hm hp
    rw [hx, exact_mul, exact_ofInt, Int.cast_natCast] at hadvance
    rw [tick_chorus, tickChorus, hchorus]
    exact hadvance
  · rw [tapRead_exact hx, ha, hb]
  · rw [tick_outputs, tickOutput, hx, exact_mul]
    rfl

end Sys2Proof.Machine

/-! PROOFS. TICK as a whole (spec 46_engine.md R131; 20_memory.md R35; decisions D8, D32). -/

namespace Sys2Proof.Machine

/-- Settles O26: VOICE.STEP keeps the note registers, and nothing else of TICK touches notes or controls. -/
theorem tickCompletesAndLeavesNotesAndControls : Obligations.TickCompletesAndLeavesNotesAndControls := by
  intro s hready
  refine ⟨tick s, tickOutput s, exec_tick_of_runs hready.runs, rfl, rfl, rfl, rfl, tickVoices_length s,
    fun v x hx => ⟨_, tickVoices_getElem? hx, ?_⟩⟩
  exact ⟨voiceStep_gate _ _ _, voiceStep_pitch _ _ _, voiceStep_freq _ _ _, voiceStep_vel _ _ _⟩

/-- Settles O28: CHO.STEP writes at the cursor, DLY.STEP at the tail or not at all. -/
theorem tickWritesOneElementOfEachRing : Obligations.TickWritesOneElementOfEachRing := by
  refine fun s hruns => ⟨tick s, exec_tick_of_runs hruns, fun i => choStep_read_ne _ _, fun i hi => ?_⟩
  rw [tick_delay, tickDelay, dlyStep_buf]
  split
  · rfl
  · next hon => exact Mem.read_write_ne _ (hi.resolve_left hon)

end Sys2Proof.Machine

/-! PROOFS. The delay as a FIFO (spec 20_memory.md R42; 45_delay.md R120, R121; decision D8). The push appends to the
ring's contents, the pop takes the oldest off; so the wet taps of successive calls are the contents followed by the
inputs, behind as many zeros as the ring has places left. -/

namespace Sys2Proof.Machine

variable {c : Cfg}

/-- Two live places of the ring differ. -/
theorem ring_place_ne {head len cap t : Nat} (hlen : len < cap) (ht : t < len) :
    (head + t) % cap ≠ (head + len) % cap := by
  intro h
  have hmod : t ≡ len [MOD cap] := Nat.ModEq.add_left_cancel' head h
  exact ht.ne (hmod.eq_of_lt_of_lt (ht.trans hlen) hlen)

/-- The push appends the input to the contents (R42). -/
theorem delayContents_push {d : Delay} (hlen : d.len < c.dlCap) (hw : Mem.wf d.buf) (x : NumVal) :
    delayContents c (dlyPush c d x) = delayContents c d ++ [x] := by
  rw [delayContents, delayContents, dlyPush, List.range_succ, List.map_append, List.map_singleton,
    Mem.read_write_same hw]
  congr 1
  refine List.map_congr_left fun t ht => ?_
  exact Mem.read_write_ne x (ring_place_ne hlen (List.mem_range.mp ht))

/-- The pop takes the oldest element off, and answers it (R42). -/
theorem delayContents_pop {d : Delay} {n : Nat} (hlen : d.len = n + 1) (hhead : d.head < c.dlCap) :
    delayContents c d = (dlyPop c d).2 :: delayContents c (dlyPop c d).1 := by
  rw [delayContents, hlen, List.range_succ_eq_map, List.map_cons, List.map_map, Nat.add_zero, Nat.mod_eq_of_lt hhead]
  congr 1
  rw [delayContents, dlyPop, hlen, Nat.add_sub_cancel]
  refine List.map_congr_left fun t _ => ?_
  simp only [Function.comp_apply, Nat.mod_add_mod]
  rw [Nat.add_right_comm, Nat.add_assoc]

/-- A full ring: the push, then the pop (R120). -/
theorem dlyStep_of_full (h0 : 0 < c.dlOffset) {d : Delay} (hlen : d.len = c.dlOffset) (x : NumVal) :
    dlyStep c d x =
      ((dlyPop c (dlyPush c d x)).1,
        c.num.add (c.num.mul c.dlDry x) (c.num.mul c.dlWet (dlyPop c (dlyPush c d x)).2)) := by
  have hpop : c.dlOffset < (dlyPush c d x).len := by simp [dlyPush, hlen]
  simp only [dlyStep, if_neg h0.ne', if_pos hpop]

/-- A ring with a place left: the push alone (R120). -/
theorem dlyStep_of_filling (h0 : 0 < c.dlOffset) {d : Delay} (hlen : d.len < c.dlOffset) (x : NumVal) :
    dlyStep c d x =
      (dlyPush c d x, c.num.add (c.num.mul c.dlDry x) (c.num.mul c.dlWet (c.num.ofInt 0))) := by
  have hkeep : ¬ c.dlOffset < (dlyPush c d x).len := by simpa [dlyPush] using hlen
  simp only [dlyStep, if_neg h0.ne', if_neg hkeep]

/-- Settles O52: the push and the pop are the FIFO's. -/
theorem delayRingIsAFifo : Obligations.DelayRingIsAFifo := by
  intro c d x h0 hcap hhead hlen hw
  have hpush := delayContents_push (c := c) (d := d) (by omega) hw x
  refine ⟨fun hfull => ⟨_, _, hpush.symm.trans (delayContents_pop rfl hhead), ?_, ?_⟩, fun hfilling => ?_⟩
  · rw [dlyStep_of_full h0 hfull]
  · rw [dlyStep_of_full h0 hfull]
  · rw [dlyStep_of_filling h0 hfilling]
    exact ⟨hpush, rfl⟩

/-- The wet taps of successive calls: zeros while the ring fills, then its contents, then the inputs (R121). -/
def wetTaps (c : Cfg) (d : Delay) (xs : List NumVal) : List NumVal :=
  List.replicate (c.dlOffset - d.len) (c.num.ofInt 0) ++ (delayContents c d ++ xs)

/-- Each output of successive calls mixes the call's input with its wet tap (R120, R121). -/
theorem delayOutputs_eq_zipWith (h0 : 0 < c.dlOffset) (hcap : c.dlOffset + 1 ≤ c.dlCap) (xs : List NumVal) (d : Delay)
    (hhead : d.head < c.dlCap) (hlen : d.len ≤ c.dlOffset) (hb : Mem.Within d.buf c.dlCap) :
    delayOutputs c d xs =
      List.zipWith (fun x tap => c.num.add (c.num.mul c.dlDry x) (c.num.mul c.dlWet tap)) xs (wetTaps c d xs) := by
  induction xs generalizing d with
  | nil => rfl
  | cons x xs ih =>
    obtain ⟨hhead', hlen', hb'⟩ := dlyStep_shape hhead hlen hb x
    obtain ⟨hfull, hfilling⟩ := delayRingIsAFifo c d x h0 hcap hhead hlen hb.1
    have hinputs : delayContents c d ++ x :: xs = (delayContents c d ++ [x]) ++ xs := by simp
    rw [delayOutputs, ih _ hhead' hlen' hb', wetTaps, wetTaps, hinputs]
    obtain hlt | heq := hlen.lt_or_eq
    · obtain ⟨hcontents, hout⟩ := hfilling hlt
      have hplaces : c.dlOffset - d.len = (c.dlOffset - (d.len + 1)) + 1 := by omega
      rw [hout, hcontents, dlyStep_of_filling h0 hlt, hplaces, List.replicate_succ]
      rfl
    · obtain ⟨tap, rest, hold, hcontents, hout⟩ := hfull heq
      have hkept : (dlyStep c d x).1.len = c.dlOffset := by
        rw [dlyStep_of_full h0 heq]
        exact heq
      rw [hout, hcontents, hold, hkept, heq, Nat.sub_self]
      rfl

/-- Settles O53: from the empty ring the taps are `DL_OFFSET` zeros and then the inputs. -/
theorem delayedOutputIsTheShiftedInput : Obligations.DelayedOutputIsTheShiftedInput := by
  intro c xs n x hx h0 hcap hn
  have houtputs := delayOutputs_eq_zipWith h0 hcap xs Delay.reset (Nat.zero_lt_of_lt hcap) (Nat.zero_le _)
    (Mem.Within_nil _)
  have htaps : wetTaps c Delay.reset xs = List.replicate c.dlOffset 0 ++ xs := by
    rw [wetTaps, ofInt_zero]
    rfl
  rw [houtputs, htaps, hx]
  simp only [List.getElem?_zipWith, hn, exact_add, exact_mul]
  refine ⟨fun hlt => ?_, fun m w hm hw => ?_⟩
  · rw [List.getElem?_append_left (by simpa using hlt), List.getElem?_replicate_of_lt hlt]
    simp
  · rw [hm, List.getElem?_append_right (by simp), List.length_replicate, Nat.add_sub_cancel, hw]

end Sys2Proof.Machine

/-! PROOFS. Silence and the first note (spec 70_reset_and_hazards.md R161; 46_engine.md R131; decisions D11 to D13,
D23). -/

namespace Sys2Proof.Machine

variable {c : Cfg} {k : Control}

/-- A voice without gate or edge in Idle: it stays so, and contributes 0 (R73, R130). -/
theorem voiceStep_silent (hx : c.num = .exact) {x : Voice}
    (h : x.gate = false ∧ x.envGate = false ∧ x.envStage = .idle) :
    ((voiceStep c k x).1.gate = false ∧ (voiceStep c k x).1.envGate = false ∧
      (voiceStep c k x).1.envStage = .idle) ∧ (voiceStep c k x).1.envAtt = 0 ∧ (voiceStep c k x).2 = 0 := by
  obtain ⟨hgate, hmemory, hstage⟩ := h
  have hedge : envEdges c x.gate x = x := envEdges_none (by rw [hmemory, hgate])
  have hstep := envStep_of_idle (k := k) ((congrArg Voice.envStage hedge).trans hstage)
  have henv : (voiceStep c k x).1.envGate = false ∧ (voiceStep c k x).1.envStage = .idle ∧
      (voiceStep c k x).1.envAtt = 0 := by
    rw [voiceStep_env, hstep, hedge]
    exact ⟨hmemory, hstage, ofInt_zero _⟩
  obtain ⟨hmemory', hstage', hatt⟩ := henv
  refine ⟨⟨(voiceStep_gate c k x).trans hgate, hmemory', hstage'⟩, hatt, ?_⟩
  rw [voiceStep_contribution, hatt, hx, exact_mul, mul_zero]

/-- The chorus of an untouched ring answers 0 with 0 and leaves the ring untouched (R131). -/
theorem choStep_silent (hx : c.num = .exact) (hl : c.legal = true) {ch : Chorus} (hb : ch.buf = []) :
    (choStep c k ch 0).1.buf = [] ∧ (choStep c k ch 0).2 = 0 := by
  have hbuf : (choStep c k ch 0).1.buf = [] := by rw [choStep_buf, hb, Mem.write_nil_zero]
  refine ⟨hbuf, ?_⟩
  cases h : chorusBypassed c k
  · rw [choStep_output_exact hx hl h, hbuf]
    simp [tapRead_exact hx]
  · rw [choStep_bypass h]

/-- The delay of an untouched ring answers 0 with 0 and leaves the ring untouched (R131). -/
theorem dlyStep_silent (hx : c.num = .exact) {d : Delay} (hb : d.buf = []) :
    (dlyStep c d 0).1.buf = [] ∧ (dlyStep c d 0).2 = 0 := by
  have hbuf : (dlyStep c d 0).1.buf = [] := by
    rw [dlyStep_buf, hb, Mem.write_nil_zero, ite_self]
  refine ⟨hbuf, ?_⟩
  by_cases h0 : c.dlOffset = 0
  · rw [dlyStep_bypass h0]
  · obtain ⟨tap, hfull, hfill, hmix⟩ := dlyStep_tap h0 d 0
    have htap : tap = 0 := by
      obtain h | h := Nat.lt_or_ge c.dlOffset (d.len + 1)
      · rw [(hfull h).1, hbuf, Mem.read_nil]
      · rw [(hfill h).1, ofInt_zero]
    rw [hmix, htap, hx, exact_add, exact_mul, exact_mul, mul_zero, mul_zero, add_zero]

/-- Settles O29: 0 passes through voices, chorus and delay, and leaves them silent. -/
theorem silenceLasts : Obligations.SilenceLasts := by
  intro s hready hsilent
  have hx := hready.exact
  have hvoice (x : Voice) (hmem : x ∈ s.voices) :=
    voiceStep_silent (k := s.control) hx (hsilent.gates x hmem)
  have hsum : tickSum s = 0 := by
    rw [tickSum, hx, exact_sum]
    refine List.sum_eq_zero fun y hy => ?_
    obtain ⟨x, hmem, rfl⟩ := List.mem_map.mp hy
    obtain ⟨-, -, hzero⟩ := hvoice x hmem
    exact hzero
  obtain ⟨hchBuf, hchOut⟩ := choStep_silent (k := s.control) hx hready.legal hsilent.chorus
  rw [← hsum] at hchBuf hchOut
  obtain ⟨hdlBuf, hdlOut⟩ := dlyStep_silent hx hsilent.delay
  have hchorus : (tickChorus s).2 = 0 := hchOut.trans hsum
  rw [← hchorus] at hdlBuf hdlOut
  have hdelay : (tickDelay s).2 = 0 := hdlOut.trans hchorus
  refine ⟨tick s, exec_tick_of_runs hready.runs, ?_, ⟨fun v hv => ?_, hchBuf, hdlBuf⟩, hready.tick⟩
  · rw [tick_outputs, tickOutput, hdelay, hx, exact_mul, zero_mul]
  · obtain ⟨x, hmem, rfl⟩ := List.mem_map.mp hv
    exact (hvoice x hmem).1

/-- The reset mix takes the band's first table alone (R63, D12). -/
theorem oscStep_controlReset (hx : c.num = .exact) {v : Voice} {sine : List NumVal} {waves : List (List NumVal)}
    (hband : bandTables c (bandSelect c v.freq) = sine :: waves) :
    (oscStep c (Control.reset c) v).2 = tableRead c sine (phaseAdvance c v.oscPhase v.freq) := by
  have hrest (n : Nat) (phase : NumVal) :
      (List.zipWith (fun m T => m * tableRead c T phase) (List.replicate n 0) waves).sum = 0 := by
    refine List.sum_eq_zero fun y hy => ?_
    obtain ⟨i, hi⟩ := List.mem_iff_getElem.mp hy
    obtain ⟨hlt, rfl⟩ := hi
    simp
  simp only [oscStep, hband, Control.reset, hx, exact_sum, exact_mul, exact_ofInt, Int.cast_one, List.zipWith_cons_cons,
    List.sum_cons, hrest, one_mul, add_zero]

/-- The filter at the reset controls halves a first sample four times (R80, D12). -/
theorem fltProc_first (hx : c.num = .exact) {v : Voice} (h0 : v.fltS0 = 0) (h1 : v.fltS1 = 0) (h2 : v.fltS2 = 0)
    (h3 : v.fltS3 = 0) (x : NumVal) : (fltProc c (Control.reset c) v x).2 = 1 / 16 * x := by
  have hcut : (Control.reset c).cutoff = 1 / 2 := by simp only [Control.reset, hx, exact_ofRat]
  obtain ⟨e0, e1, e2, e3⟩ := fltProc_stages (c := c) (k := Control.reset c) v x
  rw [fltProc_output, e3, e2, e1, e0, filterFeedback_of_no_resonance hx (by rw [hcut]; norm_num) rfl, hcut, h0, h1, h2,
    h3]
  simp only [hx, exact_add, exact_mul, exact_sub]
  ring

/-- The empty delay passes its dry path (R120, R122). -/
theorem dlyStep_reset (hx : c.num = .exact) (x : NumVal) :
    (dlyStep c Delay.reset x).2 = (if c.dlOffset = 0 then 1 else c.dlDry) * x := by
  by_cases h0 : c.dlOffset = 0
  · rw [dlyStep_bypass h0, if_pos h0, one_mul]
  · rw [dlyStep_of_filling (Nat.pos_of_ne_zero h0) (Nat.pos_of_ne_zero h0), if_neg h0, ofInt_zero, hx, exact_add,
      exact_mul, exact_mul, mul_zero, add_zero]

/-- A voice that takes a note after RESET. -/
def firstNote (p vel : Data7) (f : NumVal) : Voice :=
  { Voice.reset with pitch := p, freq := f, vel := vel, gate := true }

/-- The block after RESET and a note: the note in voice 0 (R90). -/
def firstNoteState (c : Cfg) (p vel : Data7) (f : NumVal) : State :=
  { State.resetWith c with voices := firstNote p vel f :: List.replicate (c.nvoices - 1) Voice.reset }

theorem exec_noteOn_resetWith (hl : c.legal = true) (chan : Nibble) {p vel : Data7} {f : NumVal}
    (hf : c.pitchFreq[p.toNat]? = some f) :
    exec (.noteOn chan p vel) (State.resetWith c) = .next (firstNoteState c p vel f) := by
  obtain ⟨n, hn⟩ := Nat.exists_eq_add_of_le' (Cfg.sizes_of_legal hl).nvoices
  rw [exec_noteOn, firstNoteState, resetWith_cfg, resetWith_voices, pitchFrequency_of_getElem? hf, hn]
  rfl

/-- The sample of the first note, oscillator and filter done. -/
theorem voiceFiltered_firstNote (hx : c.num = .exact) {p vel : Data7} {f : NumVal} {sine : List NumVal}
    {waves : List (List NumVal)} (hband : bandTables c (bandSelect c f) = sine :: waves) :
    (voiceFiltered c (Control.reset c) (firstNote p vel f)).2 =
      (if c.filterEn = true then 1 / 16 else 1) * tableRead c sine (phaseAdvance c 0 f) := by
  have hosc : (oscStep c (Control.reset c) (firstNote p vel f)).2 = tableRead c sine (phaseAdvance c 0 f) :=
    oscStep_controlReset hx hband
  cases hfilter : c.filterEn
  · rw [voiceFiltered_of_no_filter hfilter, hosc, if_neg Bool.false_ne_true, one_mul]
  · rw [voiceFiltered_of_filter hfilter, fltProc_first hx rfl rfl rfl rfl, hosc, if_pos rfl]

/-- The other voices are silent, so the first note is the whole sum, at level 1 (R131). -/
theorem tickSum_firstNoteState (hx : c.num = .exact) {p vel : Data7} {f : NumVal}
    (hlevel : (voiceStep c (Control.reset c) (firstNote p vel f)).1.envAtt = 1) :
    tickSum (firstNoteState c p vel f) = (voiceFiltered c (Control.reset c) (firstNote p vel f)).2 := by
  have hsilent : (voiceStep c (Control.reset c) Voice.reset).2 = 0 := (voiceStep_silent hx ⟨rfl, rfl, rfl⟩).2.2
  show c.num.sum (List.map _ (firstNote p vel f :: List.replicate (c.nvoices - 1) Voice.reset)) = _
  rw [List.map_cons, List.map_replicate, hx, exact_sum, List.sum_cons, List.sum_replicate]
  show (voiceStep c (Control.reset c) _).2 + _ • (voiceStep c (Control.reset c) Voice.reset).2 = _
  rw [hsilent, smul_zero, add_zero, voiceStep_contribution, hlevel, hx, exact_mul, mul_one]

/-- Settles O30: the note's edge is at full level at once, and its sample passes the bypassed chorus and the empty
delay. -/
theorem firstSampleOfANoteFromReset : Obligations.FirstSampleOfANoteFromReset := by
  intro c chan p vel f band sine hx hl hf hwt hsine
  have hexec := exec_noteOn_resetWith hl chan (vel := vel) hf
  have hready : (firstNoteState c p vel f).TickReady := by
    obtain ⟨t, ht, hinv⟩ := (inv_resetWith hx hl).exec (.noteOn chan p vel)
    rw [hexec] at ht
    cases ht
    exact hinv.tickReady
  obtain ⟨u, y, hu, hy, -, -, -, -, -, -, hedge⟩ :=
    risingEdgeStartsFromTheLastOutput (firstNoteState c p vel f) 0 _ hready rfl rfl rfl
  obtain rfl := tick_of_exec hu
  obtain rfl := Option.some.inj ((tickVoices_getElem? (s := firstNoteState c p vel f) (v := 0) rfl).symm.trans hy)
  obtain ⟨hstage, hsustain, -⟩ := hedge le_rfl
  have hlevel := (hsustain le_rfl).trans (show c.num.ofInt 1 = 1 by rw [hx, exact_ofInt, Int.cast_one])
  have hbypass : chorusBypassed c (Control.reset c) = true := by
    simpa [chorusBypassed, hx, Control.reset] using (Cfg.ranges_of_legal hx hl).chBypass
  have hchorus := choStep_bypass hbypass (Chorus.reset c) (tickSum (firstNoteState c p vel f))
  have hbandTables : bandTables c (bandSelect c f) = sine :: band.tail := by
    rw [bandTables, List.getD, hwt]
    cases band with
    | nil => simp at hsine
    | cons a rest => simpa using hsine
  refine ⟨_, _, _, hexec, hu, hy, hlevel, hstage, voiceStep_oscPhase _ _ _, fun v z hz => ?_,
    congrArg (fun r => r.1.wc) hchorus, ?_⟩
  · have hmem : z ∈ (List.replicate (c.nvoices - 1) Voice.reset).map (fun x => (voiceStep c (Control.reset c) x).1) :=
      List.mem_of_getElem? (i := v) hz
    obtain ⟨x, hx', rfl⟩ := List.mem_map.mp hmem
    rw [List.eq_of_mem_replicate hx']
    obtain ⟨⟨-, -, hidle⟩, hzero, -⟩ := voiceStep_silent (k := Control.reset c) hx (x := Voice.reset) ⟨rfl, rfl, rfl⟩
    exact ⟨hzero, hidle⟩
  · have hinput : (tickChorus (firstNoteState c p vel f)).2 =
        (if c.filterEn = true then 1 / 16 else 1) * tableRead c sine (phaseAdvance c 0 f) :=
      (congrArg Prod.snd hchorus).trans
        ((tickSum_firstNoteState hx hlevel).trans (voiceFiltered_firstNote hx hbandTables))
    show [c.num.mul (dlyStep c Delay.reset (tickChorus (firstNoteState c p vel f)).2).2 c.headroom] = _
    rw [dlyStep_reset hx, hinput, hx, exact_mul]

end Sys2Proof.Machine
